-- ==== Sys2Proof/Word.lean ====
section
/-! DEFINITION. The word and the byte of the dispatch unit, and their plainest arithmetic. -/

namespace Sys2Proof

/-- One memory word and one register: 32 bits, read as a signed integer (spec/00_scope.md 5.1). -/
abbrev Word := BitVec 32

/-- One byte of the program file, of the memory image (spec/20_memory.md R37) or of the I/O streams. -/
abbrev Byte := BitVec 8

/-- `wrap32` of spec/00_scope.md 5.1: the word congruent to an integer modulo 2^32. -/
abbrev wrap32 (v : Int) : Word := BitVec.ofInt 32 v

end Sys2Proof
end

