-- ==== Sys2Proof/Config.lean ====
section
/-! DEFINITION. What is fixed when a unit is created (spec/00_scope.md R1), and the free values: the host's answers to
input requests that the state does not list (spec/44_io.md R115). -/

namespace Sys2Proof

/-- `ISA_CONFIG` of spec/00_scope.md R1: which of the three fixed instruction tables the unit has. -/
inductive IsaConfig where
  /-- the base set -/
  | base
  /-- base set and jump extension -/
  | jmp
  /-- base set, jump extension and call/return extension -/
  | jmpCall
  deriving DecidableEq, Repr

/-- `DIV_OVERFLOW` of spec/00_scope.md R1: what `div` does for −2^31 / −1 (R93, D8; log 8). -/
inductive DivOverflow where
  /-- the step has no meaning: the model refuses it (the spec's default) -/
  | refuse
  /-- the quotient wraps to −2^31 -/
  | wrap
  deriving DecidableEq, Repr

/-- The parameters of spec/00_scope.md R1, fixed at create and never changed by an instruction or by reset (R19, R27).
The parameter `PROGRAM` is an argument of create and lives in Memory. -/
structure Params where
  /-- `ISA_CONFIG` -/
  isaConfig : IsaConfig
  /-- `MEM_WORDS`, the number of words of Memory -/
  memWords : Nat
  /-- `stackCapacity`, the number of words of the stack region -/
  stackCapacity : Nat
  /-- `HALT_IP_ADVANCE`, 0 or 1 (D9; log 9) -/
  haltIpAdvance : Fin 2
  /-- `DIV_OVERFLOW` (D8; log 8) -/
  divOverflow : DivOverflow
  deriving DecidableEq, Repr

/-- The host's answer to one request at the input port (spec/44_io.md R115). -/
inductive InputAnswer (α : Type) where
  /-- the host read a value -/
  | value (v : α)
  /-- the input is exhausted -/
  | endOfInput
  /-- the next input cannot be read as what was asked for -/
  | malformed
  deriving DecidableEq, Repr, Inhabited

/-- FREE VALUE (log 29): what the host answers to an `InInt()` request when the state lists no answer; the argument is the
number of such draws so far. "A model treats each answer as a draw from an oracle the claim quantifies over" (R115). -/
opaque Config.intAnswer : Nat → InputAnswer Word

/-- FREE VALUE (log 29): what the host answers to an `InChar()` request when the state lists no answer. -/
opaque Config.charAnswer : Nat → InputAnswer Byte

/-- The parameters of the unit that `Machine.State.reset` is. `stackCapacity`, `HALT_IP_ADVANCE` and `DIV_OVERFLOW` are the
defaults of spec/00_scope.md R1; `ISA_CONFIG` and `MEM_WORDS` are "model arguments" there, taken as the largest legal ones
(DESIGN CHOICE, log 27). -/
def Params.atReset : Params where
  isaConfig := .jmpCall
  memWords := 2147483648
  stackCapacity := 256
  haltIpAdvance := 0
  divOverflow := .refuse

end Sys2Proof
end

