-- ==== Sys2Proof/Syntax.lean ====
section
/-! DEFINITION. The instructions: one constructor for each of the 26 rows of spec/opcode_table.json. -/

namespace Sys2Proof

/-- The four general registers (spec/10_state.md R10). -/
inductive Reg where
  | A | B | C | D
  deriving DecidableEq, Repr

/-- An instruction with its operand words (spec/30_encoding.md R52 to R56). A register selector is kept as the whole 32-bit
operand word, because a selector outside 0..3 is decoded and fails in the handler (R55, R59, R61). -/
inductive Instr where
  /-- `nop` -/
  | nop
  /-- `halt` -/
  | halt
  /-- `add REG` -/
  | add (reg : Word)
  /-- `sub REG` -/
  | sub (reg : Word)
  /-- `mul REG` -/
  | mul (reg : Word)
  /-- `div REG` -/
  | div (reg : Word)
  /-- `inc REG` -/
  | inc (reg : Word)
  /-- `dec REG` -/
  | dec (reg : Word)
  /-- `loop INDEX` -/
  | loop (index : Word)
  /-- `movr REG, VALUE` -/
  | movr (reg value : Word)
  /-- `load REG, OFFSET` -/
  | load (reg offset : Word)
  /-- `store REG, OFFSET` -/
  | store (reg offset : Word)
  /-- `in REG` (the name `in` is a word of Lean's) -/
  | inp (reg : Word)
  /-- `get REG` -/
  | get (reg : Word)
  /-- `out REG` -/
  | out (reg : Word)
  /-- `put REG` -/
  | put (reg : Word)
  /-- `swap REG1, REG2` -/
  | swap (reg1 reg2 : Word)
  /-- `push REG` -/
  | push (reg : Word)
  /-- `pop REG` -/
  | pop (reg : Word)
  /-- `cmp REG1, REG2` -/
  | cmp (reg1 reg2 : Word)
  /-- `jmp INDEX` -/
  | jmp (index : Word)
  /-- `jz INDEX` -/
  | jz (index : Word)
  /-- `jnz INDEX` -/
  | jnz (index : Word)
  /-- `jgt INDEX` -/
  | jgt (index : Word)
  /-- `call INDEX` -/
  | call (index : Word)
  /-- `ret` -/
  | ret
  deriving DecidableEq, Repr

end Sys2Proof
end

