-- ==== Sys2Proof/WellFormed.lean ====
section
/-! DEFINITION. Well-formedness. Every operand word is legal at decode time (spec/30_encoding.md R59), so an instruction is
well formed for a configuration exactly when that configuration's table has it (R57). Parameters are well formed when the
geometry satisfies spec/00_scope.md R1 and spec/10_state.md R20. -/

namespace Sys2Proof

/-- The three groups of the instruction table (spec/00_scope.md section 1). -/
inductive Extension where
  | base | jump | callReturn
  deriving DecidableEq, Repr

/-- The group an instruction belongs to (the configuration column of spec/30_encoding.md R54). -/
def Instr.extension : Instr → Extension
  | .nop | .halt | .add _ | .sub _ | .mul _ | .div _ | .inc _ | .dec _ | .loop _ | .movr _ _ | .load _ _ | .store _ _
  | .inp _ | .get _ | .out _ | .put _ | .swap _ _ | .push _ | .pop _ => .base
  | .cmp _ _ | .jmp _ | .jz _ | .jnz _ | .jgt _ => .jump
  | .call _ | .ret => .callReturn

/-- Which groups a configuration's table holds: `JMP_CALL` includes `JMP` (spec/00_scope.md R1). -/
def IsaConfig.has : IsaConfig → Extension → Bool
  | _, .base => true
  | .base, .jump => false
  | .jmp, .jump => true
  | .jmpCall, .jump => true
  | .base, .callReturn => false
  | .jmp, .callReturn => false
  | .jmpCall, .callReturn => true

/-- The one check on an instruction: the configuration has it (spec/30_encoding.md R57, R59). -/
def Instr.wellFormed (cfg : IsaConfig) (i : Instr) : Bool := cfg.has i.extension

/-- The legal parameter values of spec/00_scope.md R1: 1 ≤ MEM_WORDS ≤ 2^31 and stackCapacity ≤ MEM_WORDS − 1, which is
`0 ≤ stackLimit` of spec/10_state.md R20 (D5, D17; logs 5, 17). -/
abbrev Params.wellFormed (p : Params) : Prop :=
  1 ≤ p.memWords ∧ p.memWords ≤ 2147483648 ∧ p.stackCapacity + 1 ≤ p.memWords

end Sys2Proof
end

