-- ==== Sys2Proof/Decode.lean ====
section
/-! DEFINITION. The instruction table, the decoder (total, rejecting by name) and the encoder, from spec/30_encoding.md. -/

namespace Sys2Proof

/-- `instructionCount` of spec/00_scope.md R1: 19, 24 or 26 opcodes. -/
def IsaConfig.instructionCount : IsaConfig → Nat
  | .base => 19
  | .jmp => 24
  | .jmpCall => 26

/-- The five formats of spec/30_encoding.md R53. -/
inductive Format where
  | F0 | FR | FI | FRV | FRR
  deriving DecidableEq, Repr

/-- The length of a format in words (R53): the opcode word and 0 to 2 operand words (R50). -/
def Format.length : Format → Nat
  | .F0 => 1
  | .FR | .FI => 2
  | .FRV | .FRR => 3

/-- The format of an instruction (the format column of R54). -/
def Instr.format : Instr → Format
  | .nop | .halt | .ret => .F0
  | .add _ | .sub _ | .mul _ | .div _ | .inc _ | .dec _ | .inp _ | .get _ | .out _ | .put _ | .push _ | .pop _ => .FR
  | .loop _ | .jmp _ | .jz _ | .jnz _ | .jgt _ | .call _ => .FI
  | .movr _ _ | .load _ _ | .store _ _ => .FRV
  | .swap _ _ | .cmp _ _ => .FRR

/-- The length of an instruction in words (R53, R54). -/
def Instr.length (i : Instr) : Nat := i.format.length

/-- One row of the instruction table: the instruction the opcode stands for, awaiting its operand words (R54). -/
inductive Row where
  /-- no operand word: `F0` -/
  | zero (i : Instr)
  /-- one operand word: `FR`, `FI` -/
  | one (mk : Word → Instr)
  /-- two operand words: `FRV`, `FRR` -/
  | two (mk : Word → Word → Instr)

/-- How many operand words the row's instruction has. -/
def Row.operands : Row → Nat
  | .zero _ => 0
  | .one _ => 1
  | .two _ => 2

/-- The row's length in words, the opcode word included (R50). -/
def Row.length (r : Row) : Nat := 1 + r.operands

/-- The row's instruction, with its operand words read from `word 1` and `word 2` in that order (R52, D2; log 2). Only the
words the row has are read. -/
def Row.fill (r : Row) (word : Nat → Word) : Instr :=
  match r with
  | .zero i => i
  | .one mk => mk (word 1)
  | .two mk => mk (word 1) (word 2)

/-- The opcode map of R54 (numbers: D1; log 1). -/
def opcodeRow : Nat → Option Row
  | 0 => some (.zero .nop)
  | 1 => some (.zero .halt)
  | 2 => some (.one .add)
  | 3 => some (.one .sub)
  | 4 => some (.one .mul)
  | 5 => some (.one .div)
  | 6 => some (.one .inc)
  | 7 => some (.one .dec)
  | 8 => some (.one .loop)
  | 9 => some (.two .movr)
  | 10 => some (.two .load)
  | 11 => some (.two .store)
  | 12 => some (.one .inp)
  | 13 => some (.one .get)
  | 14 => some (.one .out)
  | 15 => some (.one .put)
  | 16 => some (.two .swap)
  | 17 => some (.one .push)
  | 18 => some (.one .pop)
  | 19 => some (.two .cmp)
  | 20 => some (.one .jmp)
  | 21 => some (.one .jz)
  | 22 => some (.one .jnz)
  | 23 => some (.one .jgt)
  | 24 => some (.one .call)
  | 25 => some (.zero .ret)
  | _ => none

/-- The row an opcode word selects in a configuration: the whole word, as a signed integer, must satisfy
`0 ≤ op < instructionCount` (R51, R57, R58; upper end: C1, D3; log 3). -/
def lookup (cfg : IsaConfig) (op : Word) : Option Row :=
  if 0 ≤ op.toInt ∧ op.toInt < cfg.instructionCount then opcodeRow op.toNat else none

/-- Why a word sequence spells no instruction. -/
inductive DecodeError where
  /-- the opcode word is not below `instructionCount`, or negative (R58) -/
  | illegalOpcode (op : Word)
  /-- the sequence ends before the instruction's last operand word (R50) -/
  | truncated (op : Word)
  /-- there is no opcode word -/
  | empty
  deriving DecidableEq, Repr

/-- The decoding procedure of R61 on a sequence of words: the instruction and the words after it. Total; selectors are not
checked here (R61). -/
def decode (cfg : IsaConfig) : List Word → Except DecodeError (Instr × List Word)
  | [] => .error .empty
  | op :: rest =>
    match lookup cfg op with
    | none => .error (.illegalOpcode op)
    | some row =>
      if rest.length < row.operands then .error (.truncated op)
      else .ok (row.fill fun k => (op :: rest).getD k 0, rest.drop row.operands)

/-- A word from four bytes, least significant first (spec/20_memory.md R37). -/
def wordOfBytes (b0 b1 b2 b3 : Byte) : Word := b3 ++ b2 ++ b1 ++ b0

/-- Byte `k` (0 to 3) of a word, byte 0 the least significant (spec/20_memory.md R37). -/
def byteOfWord (w : Word) (k : Nat) : Byte := w.extractLsb' (8 * k) 8

/-- The four bytes of a word in the program file's order (spec/20_memory.md R37). -/
def bytesOfWord (w : Word) : List Byte := [byteOfWord w 0, byteOfWord w 1, byteOfWord w 2, byteOfWord w 3]

/-- The whole words at the front of a byte sequence; one to three bytes left over make no word. -/
def wordsOfBytes : List Byte → List Word
  | b0 :: b1 :: b2 :: b3 :: rest => wordOfBytes b0 b1 b2 b3 :: wordsOfBytes rest
  | _ => []

/-- The words of a program file: `none` when its length is no multiple of 4 (spec/20_memory.md R37, R38; C8, D18; log 18). -/
def programOfFile (bytes : List Byte) : Option (List Word) :=
  if bytes.length % 4 = 0 then some (wordsOfBytes bytes) else none

/-- The decoder on bytes laid out as the program file lays them out. -/
def decodeBytes (cfg : IsaConfig) (bytes : List Byte) : Except DecodeError (Instr × List Word) :=
  decode cfg (wordsOfBytes bytes)

/-- The opcode number of an instruction (R54, D1; log 1). -/
def Instr.opcode : Instr → Nat
  | .nop => 0
  | .halt => 1
  | .add _ => 2
  | .sub _ => 3
  | .mul _ => 4
  | .div _ => 5
  | .inc _ => 6
  | .dec _ => 7
  | .loop _ => 8
  | .movr _ _ => 9
  | .load _ _ => 10
  | .store _ _ => 11
  | .inp _ => 12
  | .get _ => 13
  | .out _ => 14
  | .put _ => 15
  | .swap _ _ => 16
  | .push _ => 17
  | .pop _ => 18
  | .cmp _ _ => 19
  | .jmp _ => 20
  | .jz _ => 21
  | .jnz _ => 22
  | .jgt _ => 23
  | .call _ => 24
  | .ret => 25

/-- The operand words of an instruction, in the order they stand in memory (R52). -/
def Instr.operandWords : Instr → List Word
  | .nop | .halt | .ret => []
  | .add r | .sub r | .mul r | .div r | .inc r | .dec r | .inp r | .get r | .out r | .put r | .push r | .pop r => [r]
  | .loop x | .jmp x | .jz x | .jnz x | .jgt x | .call x => [x]
  | .movr r v | .load r v | .store r v => [r, v]
  | .swap r1 r2 | .cmp r1 r2 => [r1, r2]

/-- The words of an instruction: its opcode word and its operand words (R50 to R54). -/
def encode (i : Instr) : List Word := BitVec.ofNat 32 i.opcode :: i.operandWords

/-- The bytes of an instruction as the program file stores them (spec/20_memory.md R37). -/
def encodeBytes (i : Instr) : List Byte := (encode i).flatMap bytesOfWord

/-- The three words, the longest instruction's length, of an instruction whose `nbits` bits are `w`: bit 0 is the least
significant bit of the first word, and every bit above `nbits` is 0. -/
def tableWords (nbits w : Nat) : List Word :=
  let bits := w % 2 ^ nbits
  [BitVec.ofNat 32 bits, BitVec.ofNat 32 (bits / 2 ^ 32), BitVec.ofNat 32 (bits / 2 ^ 64)]

/-- The instruction the decoder reads from an instruction whose bits are `w`, in the configuration that has every opcode. -/
def decodeTableWord (nbits w : Nat) : Option Instr :=
  match decodeBytes .jmpCall ((tableWords nbits w).flatMap bytesOfWord) with
  | .ok (i, _) => some i
  | .error _ => none

end Sys2Proof
end

