-- ==== Sys2Proof/Machine/State.lean ====
section
/-! DEFINITION. The state of the unit as plain data, the reasons a step can stop, and the unit right after reset
(spec/10_state.md). -/

namespace Sys2Proof.Machine

/-- The status register's eight values (spec/10_state.md R16). -/
inductive Status where
  /-- running: the only value that is not terminal -/
  | ok
  /-- terminal, success: `halt` -/
  | halted
  /-- the opcode word is out of range -/
  | illegalInstruction
  /-- a bad register selector, or a value `put` cannot write -/
  | illegalOperand
  /-- `IP`, or the end of the instruction, outside `[0, stackLimit)` -/
  | invalidAddress
  /-- `load`, `store`, `push`, `pop`, `call`, `ret` outside the stack region -/
  | invalidStackOperation
  /-- `div` by zero -/
  | divByZero
  /-- a malformed read by `in` or `get` -/
  | ioError
  deriving DecidableEq, Repr

/-- Memory (spec/10_state.md R22): the bytes of the memory image (word `k` is bytes `4k .. 4k + 3`, spec/20_memory.md R37),
as address and byte pairs, addresses strictly rising, none equal to what an unlisted address reads as (log 26). -/
abbrev Memory := List Host.Cell

/-- An event at the output port (spec/44_io.md R116). -/
inductive OutputEvent where
  /-- `OutInt(v)`: a register written as a decimal integer -/
  | outInt (v : Word)
  /-- `OutByte(b)`: a register written as one byte -/
  | outByte (b : Byte)
  deriving DecidableEq, Repr

/-- The MODEL's own fields, not state of the unit (spec/10_state.md R23 (c)): the host's side of the two ports (log 29). -/
structure Ports where
  /-- the host's answers to the next `InInt()` requests, in order -/
  intAnswers : List (InputAnswer Word)
  /-- the host's answers to the next `InChar()` requests, in order -/
  charAnswers : List (InputAnswer Byte)
  /-- how many requests found their list empty and took a free value -/
  draws : Nat
  /-- the events emitted so far, oldest first -/
  output : List OutputEvent
  deriving DecidableEq, Repr

/-- Everything a created unit is (spec/10_state.md R10 to R22), with the parameters it was created with (R19) and the host's
side of its ports. -/
structure State where
  /-- register A (R10) -/
  a : Word
  /-- register B (R10) -/
  b : Word
  /-- register C (R10) -/
  c : Word
  /-- register D (R10) -/
  d : Word
  /-- the instruction pointer, a word index read as signed (R13, R14) -/
  ip : Word
  /-- the status register (R16) -/
  status : Status
  /-- the stack-size counter, read as signed (R18) -/
  stackSize : Word
  /-- the result register; nothing reaches it in configuration `BASE` (R21; log 24) -/
  result : Word
  /-- Memory (R22) -/
  mem : Memory
  /-- the parameters fixed at create (spec/00_scope.md R1) -/
  params : Params
  /-- the host's side of the input and output ports (R23 (c)) -/
  ports : Ports
  deriving DecidableEq, Repr

/-- Why a step stops with a fault. -/
inductive Fault where
  /-- Raised by the memory port for a word index outside 0 .. MEM_WORDS − 1, where spec/00_scope.md 5.2 defines no access.
  SAFE: no state that meets the model's invariant reaches it (log 31). -/
  | noSuchWord (index : Int)
  deriving DecidableEq, Repr

/-- Why a step or a host transaction has no meaning. -/
inductive Refusal where
  /-- Raised by an arm of `exec` whose instruction has no meaning yet; no arm uses it. SAFE. -/
  | notModelled (mnemonic : String)
  /-- Raised by `div` for −2^31 / −1 when `DIV_OVERFLOW` is `refuse` (spec/41_arithmetic.md R93: "no meaning: the model
  refuses the step"). SAFE (log 8). -/
  | divOverflow
  /-- Raised by a transaction other than create on a unit not created or destroyed (spec/70_reset_and_hazards.md R166).
  SAFE (log 19). -/
  | notCreated
  /-- Raised by create outside the constraints of spec/10_state.md R20. SAFE (log 17). -/
  | badGeometry
  /-- Raised by create on a unit that has been created and not destroyed; the spec says nothing of it. SAFE (log 32). -/
  | alreadyCreated
  deriving DecidableEq, Repr

/-- The ports before any request: no answer listed, nothing drawn, nothing written (log 29). -/
def Ports.atReset : Ports where
  intAnswers := []
  charAnswers := []
  draws := 0
  output := []

/-- The machine right after reset (spec/10_state.md R27): a unit created with the parameters `Params.atReset` and an empty
program (logs 27, 28). -/
def State.reset : State where
  a := 0
  b := 0
  c := 0
  d := 0
  ip := 0
  status := .ok
  stackSize := 0
  result := 0
  mem := []
  params := Params.atReset
  ports := Ports.atReset

end Sys2Proof.Machine
end

