-- ==== Sys2Proof/Machine/Ops.lean ====
section
/-! DEFINITION. The named operations over memory, registers, status and ports that every meaning is built from: the memory
port, the register file, the handler protocol (the unit's taking of an exception among it), the stack pointer and the two
I/O ports. -/

namespace Sys2Proof.Machine

/-! ## Memory as bytes, and its one word access -/

/-- What a byte that is not listed reads as: 0 (spec/10_state.md R27 for the stack range; spec/20_memory.md R36, D22, for the
gap; log 22). -/
def Memory.unlisted : Byte := 0

/-- The byte at a byte address of the image. -/
def Memory.readByte : Memory → Nat → Byte
  | [], _ => Memory.unlisted
  | (a, b) :: rest, k => if a = k then b else Memory.readByte rest k

/-- Write one byte, keeping the canonical form. -/
def Memory.writeByte : Memory → Nat → Byte → Memory
  | [], k, v => if v = Memory.unlisted then [] else [(k, v)]
  | (a, b) :: rest, k, v =>
    if k < a then (if v = Memory.unlisted then (a, b) :: rest else (k, v) :: (a, b) :: rest)
    else if k = a then (if v = Memory.unlisted then rest else (k, v) :: rest)
    else (a, b) :: Memory.writeByte rest k v

/-- `Mem[i]`: the word at word index `i` (spec/20_memory.md R30, R32), made of its four bytes (R37). -/
def Memory.readWord (m : Memory) (i : Nat) : Word :=
  wordOfBytes (m.readByte (4 * i)) (m.readByte (4 * i + 1)) (m.readByte (4 * i + 2)) (m.readByte (4 * i + 3))

/-- `Mem[i] <- w`: write the word at word index `i` and nothing else (spec/20_memory.md R32). -/
def Memory.writeWord (m : Memory) (i : Nat) (w : Word) : Memory :=
  (((m.writeByte (4 * i) (byteOfWord w 0)).writeByte (4 * i + 1) (byteOfWord w 1)).writeByte (4 * i + 2)
    (byteOfWord w 2)).writeByte (4 * i + 3) (byteOfWord w 3)

/-- Zero every word from index `lo` up to, not including, `hi`: the write loop of reset (spec/70_reset_and_hazards.md R161). -/
def Memory.zeroWords (m : Memory) (lo hi : Nat) : Memory :=
  m.filter fun cell => !(decide (4 * lo ≤ cell.1) && decide (cell.1 < 4 * hi))

/-- Place words at consecutive word indices from `i` on: how an image enters Memory (spec/20_memory.md R36, R37). -/
def Memory.placeWords (m : Memory) (i : Nat) : List Word → Memory
  | [] => m
  | w :: ws => (m.writeWord i w).placeWords (i + 1) ws

/-- The canonical form: addresses strictly rising, no entry equal to what an unlisted address reads as. -/
abbrev Memory.wf (m : Memory) : Prop :=
  List.Pairwise (fun x y => x.1 < y.1) m ∧ ∀ cell ∈ m, cell.2 ≠ Memory.unlisted

end Sys2Proof.Machine

namespace Sys2Proof

/-! ## Derived parameters -/

/-- `stackBottom`, the last word of Memory (spec/00_scope.md R1, spec/10_state.md R19). -/
def Params.stackBottom (p : Params) : Int := p.memWords - 1

/-- `stackLimit = stackBottom − stackCapacity` (spec/00_scope.md R1, spec/10_state.md R19). -/
def Params.stackLimit (p : Params) : Int := p.stackBottom - p.stackCapacity

/-- The amount `halt` adds to the instruction pointer (spec/00_scope.md R1; log 9). -/
def Params.haltAdvance (p : Params) : Word := BitVec.ofNat 32 p.haltIpAdvance.val

/-- `tdiv` of spec/00_scope.md 5.1: the quotient rounded toward zero, `sign(a)·sign(b)·floor(|a| / |b|)` (D7; log 7). -/
def tdiv (a b : Int) : Int := a.sign * b.sign * ((a.natAbs / b.natAbs : Nat) : Int)

end Sys2Proof

namespace Sys2Proof.Machine

/-! ## The register file -/

/-- `x[r]`: read a general register (spec/10_state.md R10, R11). -/
def State.reg (s : State) : Reg → Word
  | .A => s.a
  | .B => s.b
  | .C => s.c
  | .D => s.d

/-- `x[r] <- v`: write a general register (spec/10_state.md R10). -/
def State.setReg (s : State) (r : Reg) (v : Word) : State :=
  match r with
  | .A => { s with a := v }
  | .B => { s with b := v }
  | .C => { s with c := v }
  | .D => { s with d := v }

/-! ## Status -/

/-- The status code on the 3-bit status port (spec/10_state.md R16, D4; log 4). -/
def Status.code : Status → BitVec 3
  | .ok => 0
  | .halted => 1
  | .illegalInstruction => 2
  | .illegalOperand => 3
  | .invalidAddress => 4
  | .invalidStackOperation => 5
  | .divByZero => 6
  | .ioError => 7

/-- TAKING AN EXCEPTION (spec/60_exceptions.md R146): the status is written and nothing else; `IP` stays on the failing
instruction and no value is saved (R143). Its one way back is reset (R147). -/
def State.fail (s : State) (st : Status) : State := { s with status := st }

/-- `step_ok` of a step that ended in this state (spec/40_dispatch.md R78): 1 after `SIG_NEXT` and `SIG_JUMPED`, which leave
the status OK; 0 after a failed check, `SIG_FAIL` or a step on a stopped machine, which leave it not OK (log 30). -/
def State.stepOk (s : State) : Bool := decide (s.status = .ok)

/-! ## The handler protocol (spec/40_dispatch.md R75) -/

/-- A handler's continuation signal (R75). -/
inductive Signal where
  /-- `SIG_FAIL` = 0 -/
  | fail
  /-- `SIG_NEXT` = 1 -/
  | next
  /-- `SIG_JUMPED` = 2 -/
  | jumped
  deriving DecidableEq, Repr

/-- What a handler that ends leaves: its signal and the state it made. -/
structure Handled where
  signal : Signal
  state : State
  deriving DecidableEq, Repr

/-- The result of a handler: it ends, or the model has no meaning for it. -/
abbrev Handler := Host.Outcome Handled Fault Refusal

/-- Part 5 of the step after the handler (R70, R75): on `SIG_NEXT` the dispatch loop adds the opcode's length to `IP`; on the
other signals it leaves `IP` alone. -/
def Handled.commit (len : Nat) (h : Handled) : State :=
  match h.signal with
  | .fail => h.state
  | .next => { h.state with ip := h.state.ip + BitVec.ofNat 32 len }
  | .jumped => h.state

/-- Run a handler as part 5 of the step of an instruction `len` words long (R70, R74). -/
def dispatch (len : Nat) : Handler → Host.Outcome State Fault Refusal
  | .next h => .next (h.commit len)
  | .fault f => .fault f
  | .refused r => .refused r

/-- `raise <Status>` (spec/00_scope.md 5.3): take the exception and return `SIG_FAIL`. -/
def raise (st : Status) (s : State) : Handler := .next ⟨.fail, s.fail st⟩

/-- `return SIG_NEXT`. -/
def proceed (s : State) : Handler := .next ⟨.next, s⟩

/-- `IP <- target; return SIG_JUMPED`: every control transfer (spec/45_branch.md R131: the target is not checked). -/
def jumpTo (target : Word) (s : State) : Handler := .next ⟨.jumped, { s with ip := target }⟩

/-! ## The memory port (spec/20_memory.md R32) -/

/-- `MemRead(index, 1)`, then the rest of the handler. Outside Memory the port has no meaning (log 31). -/
def readThen (index : Int) (s : State) (rest : Word → Handler) : Handler :=
  if 0 ≤ index ∧ index < s.params.memWords then rest (s.mem.readWord index.toNat) else .fault (.noSuchWord index)

/-- `MemWrite(index, 1, v)`, then the rest of the handler. Outside Memory the port has no meaning (log 31). -/
def writeThen (index : Int) (v : Word) (s : State) (rest : State → Handler) : Handler :=
  if 0 ≤ index ∧ index < s.params.memWords then rest { s with mem := s.mem.writeWord index.toNat v }
  else .fault (.noSuchWord index)

/-! ## The stack pointer (spec/10_state.md R18) -/

/-- `top`: the index of the next free stack slot, `stackBottom − stackSize`. -/
def State.freeSlot (s : State) : Int := s.params.stackBottom - s.stackSize.toInt

/-- The index of the stack top, the most recently pushed word, `stackBottom − stackSize + 1`. -/
def State.topSlot (s : State) : Int := s.freeSlot + 1

/-- The push that `push` and `call` share (spec/43_stack.md R108, spec/46_call_return.md R135): fail when the stack is full,
else write the next free slot and count it. -/
def pushThen (v : Word) (s : State) (rest : State → Handler) : Handler :=
  if s.params.stackCapacity ≤ s.stackSize.toInt then raise .invalidStackOperation s
  else writeThen s.freeSlot v s fun s' => rest { s' with stackSize := s'.stackSize + 1 }

/-! ## The input port (spec/44_io.md R115) -/

/-- `InInt()`: the host's answer and the ports after the request (log 29). -/
def Ports.inInt (p : Ports) : InputAnswer Word × Ports :=
  match p.intAnswers with
  | ans :: rest => (ans, { p with intAnswers := rest })
  | [] => (Config.intAnswer p.draws, { p with draws := p.draws + 1 })

/-- `InChar()`: the host's answer and the ports after the request (log 29). -/
def Ports.inChar (p : Ports) : InputAnswer Byte × Ports :=
  match p.charAnswers with
  | ans :: rest => (ans, { p with charAnswers := rest })
  | [] => (Config.charAnswer p.draws, { p with draws := p.draws + 1 })

/-- What `in` and `get` do with the answer (R117, R118): a value goes to the register; at end of input `C <- 0` and then the
register `<- −1`, in this order (D14; logs 14, 33); a malformed read raises IOError. -/
def receive (r : Reg) (ans : InputAnswer Word) (s : State) : Handled :=
  match ans with
  | .value v => ⟨.next, s.setReg r v⟩
  | .endOfInput => ⟨.next, (s.setReg .C 0).setReg r (-1)⟩
  | .malformed => ⟨.fail, s.fail .ioError⟩

/-- The character of an `InChar()` answer as a word: its unsigned value 0 .. 255 (R118, D13; log 13). -/
def charAsWord : InputAnswer Byte → InputAnswer Word
  | .value b => .value (b.zeroExtend 32)
  | .endOfInput => .endOfInput
  | .malformed => .malformed

/-! ## The output port (spec/44_io.md R116) -/

/-- Emit one event. Output does not fail and does not wait (D25; log 25). -/
def State.emit (s : State) (e : OutputEvent) : State :=
  { s with ports := { s.ports with output := s.ports.output ++ [e] } }

/-- The ASCII decimal digits of a number below `10 ^ fuel`, no leading zeros. -/
def decimalDigits : Nat → Nat → List Byte
  | 0, _ => []
  | fuel + 1, n =>
    if n < 10 then [BitVec.ofNat 8 (48 + n)] else decimalDigits fuel (n / 10) ++ [BitVec.ofNat 8 (48 + n % 10)]

/-- The bytes an event puts on the host's output stream (R116, D13; log 13): decimal digits with a leading `-` for a negative
value and no separator, or the one byte. -/
def OutputEvent.bytes : OutputEvent → List Byte
  | .outInt v => if v.toInt < 0 then 45 :: decimalDigits 10 v.toInt.natAbs else decimalDigits 10 v.toInt.natAbs
  | .outByte b => [b]

/-- The bytes of a sequence of events, in order. -/
def renderOutput (events : List OutputEvent) : List Byte := events.flatMap OutputEvent.bytes

/-! ## Reset (spec/70_reset_and_hazards.md R161) -/

/-- The `reset` transaction on a created unit: registers, result, status, stack pointer and instruction pointer to their reset
values, every word from `stackLimit` to `stackBottom` zeroed, everything else kept (R161; the streams are the host's, R162). -/
def State.resetUnit (s : State) : State :=
  { s with
    a := 0
    b := 0
    c := 0
    d := 0
    result := 0
    status := .ok
    stackSize := 0
    ip := 0
    mem := s.mem.zeroWords s.params.stackLimit.toNat (s.params.stackBottom + 1).toNat }

/-! ## Fetching an instruction -/

/-- Step check 2 (spec/40_dispatch.md R71): `0 ≤ IP < stackLimit`. -/
abbrev State.ipInRange (s : State) : Prop := 0 ≤ s.ip.toInt ∧ s.ip.toInt < s.params.stackLimit

/-- The word `k` words after the one `IP` addresses. -/
def State.codeWord (s : State) (k : Nat) : Word := s.mem.readWord (s.ip.toInt.toNat + k)

/-- Checks 2 to 4 of the step and the reading of the operand words (spec/40_dispatch.md R70 to R74): the instruction to run,
or the status the first failing check sets. An operand word is read only after the whole instruction is known to fit. -/
def fetch (s : State) : Except Status Instr :=
  if s.ipInRange then
    match lookup s.params.isaConfig (s.codeWord 0) with
    | none => .error .illegalInstruction
    | some row =>
      if s.ip.toInt + row.length ≤ s.params.stackLimit then .ok (row.fill s.codeWord) else .error .invalidAddress
  else .error .invalidAddress

end Sys2Proof.Machine
end

