-- ==== Sys2Proof/Machine/Operands.lean ====
section
/-! DEFINITION. The operand forms (spec/30_encoding.md R55): register selectors and the frame-relative slot. INDEX, VALUE and
OFFSET operands are whole words, used as they are (R56). -/

namespace Sys2Proof

/-- The selector word of a register: 0 for A, 1 for B, 2 for C, 3 for D (spec/10_state.md R11). -/
def Reg.selector : Reg → Word
  | .A => 0
  | .B => 1
  | .C => 2
  | .D => 3

end Sys2Proof

namespace Sys2Proof.Machine

/-- The register a selector word names: 0, 1, 2, 3 for A, B, C, D, and no register for any other word
(spec/10_state.md R11). -/
def selected (w : Word) : Option Reg :=
  if w = 0 then some .A else if w = 1 then some .B else if w = 2 then some .C else if w = 3 then some .D else none

/-- `r <- Reg(w)`, then the rest of the handler: a word that names no register raises IllegalOperand
(spec/40_dispatch.md R77). -/
def withReg (w : Word) (s : State) (rest : Reg → Handler) : Handler :=
  match selected w with
  | some r => rest r
  | none => raise .illegalOperand s

/-- The frame-relative slot `stackBottom − stackSize + D + OFFSET + 1`, in unbounded integers (spec/43_stack.md R105, D12;
log 12). -/
def State.frameSlot (s : State) (offset : Word) : Int :=
  s.params.stackBottom - s.stackSize.toInt + s.d.toInt + offset.toInt + 1

/-- `valid(slot)`: strictly above `stackLimit`, at most `stackBottom` (spec/43_stack.md R105). -/
abbrev State.slotValid (s : State) (slot : Int) : Prop := s.params.stackLimit < slot ∧ slot ≤ s.params.stackBottom

/-- The bounds check `load` and `store` share, then the rest of the handler with the slot (spec/43_stack.md R106, R107). -/
def withFrameSlot (offset : Word) (s : State) (rest : Int → Handler) : Handler :=
  if s.slotValid (s.frameSlot offset) then rest (s.frameSlot offset) else raise .invalidStackOperation s

end Sys2Proof.Machine
end

