-- ==== Sys2Proof/Machine/Arithmetic.lean ====
section
/-! DEFINITION. `add`, `sub`, `mul`, `div`, `inc`, `dec` (spec/41_arithmetic.md R90 to R96). Results are computed in the
integers and wrapped to 32 bits (R96, D6; log 6). -/

namespace Sys2Proof.Machine

/-- `add REG` (R90): `A <- wrap32(A + x[r])`. -/
def execAdd (reg : Word) (s : State) : Host.Outcome State Fault Refusal :=
  dispatch 2 (withReg reg s fun r => proceed { s with a := wrap32 (s.a.toInt + (s.reg r).toInt) })

/-- `sub REG` (R91): `A <- wrap32(A - x[r])`. -/
def execSub (reg : Word) (s : State) : Host.Outcome State Fault Refusal :=
  dispatch 2 (withReg reg s fun r => proceed { s with a := wrap32 (s.a.toInt - (s.reg r).toInt) })

/-- `mul REG` (R92): `A <- wrap32(A * x[r])`. -/
def execMul (reg : Word) (s : State) : Host.Outcome State Fault Refusal :=
  dispatch 2 (withReg reg s fun r => proceed { s with a := wrap32 (s.a.toInt * (s.reg r).toInt) })

/-- The quotient part of `div` after the divisor is known (R93): division by zero raises DivByZero; −2^31 / −1 is what
`DIV_OVERFLOW` says (D8; log 8); else the quotient is rounded toward zero (D7; log 7). -/
def divideA (divisor : Word) (s : State) : Handler :=
  if divisor.toInt = 0 then raise .divByZero s
  else if s.a.toInt = -2147483648 ∧ divisor.toInt = -1 then
    match s.params.divOverflow with
    | .refuse => .refused .divOverflow
    | .wrap => proceed { s with a := 0x80000000#32 }
  else proceed { s with a := wrap32 (tdiv s.a.toInt divisor.toInt) }

/-- `div REG` (R93). -/
def execDiv (reg : Word) (s : State) : Host.Outcome State Fault Refusal :=
  dispatch 2 (withReg reg s fun r => divideA (s.reg r) s)

/-- `inc REG` (R94): `x[r] <- wrap32(x[r] + 1)`. -/
def execInc (reg : Word) (s : State) : Host.Outcome State Fault Refusal :=
  dispatch 2 (withReg reg s fun r => proceed (s.setReg r (wrap32 ((s.reg r).toInt + 1))))

/-- `dec REG` (R95): `x[r] <- wrap32(x[r] - 1)`. -/
def execDec (reg : Word) (s : State) : Host.Outcome State Fault Refusal :=
  dispatch 2 (withReg reg s fun r => proceed (s.setReg r (wrap32 ((s.reg r).toInt - 1))))

end Sys2Proof.Machine
end

