-- ==== Sys2Proof/Machine/Flags.lean ====
section
/-! DEFINITION. The unit's only condition state, the result register (spec/10_state.md R21): what `cmp` writes to it and the
three conditions the jumps test. There are no carry, overflow, sign or zero bits. -/

namespace Sys2Proof.Machine

/-- What `cmp` writes: the wrapped difference (spec/45_branch.md R126; wrap: spec/41_arithmetic.md R96, D6; log 6). -/
def compareResult (x y : Word) : Word := wrap32 (x.toInt - y.toInt)

/-- The condition of `jz` (spec/45_branch.md R128). -/
def State.resultZero (s : State) : Bool := decide (s.result.toInt = 0)

/-- The condition of `jnz` (spec/45_branch.md R129). -/
def State.resultNonzero (s : State) : Bool := decide (s.result.toInt ≠ 0)

/-- The condition of `jgt`, a signed comparison (spec/45_branch.md R130). -/
def State.resultPositive (s : State) : Bool := decide (0 < s.result.toInt)

/-- A conditional jump: taken, `IP <- INDEX` and `SIG_JUMPED`; not taken, `SIG_NEXT` (spec/45_branch.md R132). -/
def branchIf (taken : Bool) (target : Word) (s : State) : Handler := if taken then jumpTo target s else proceed s

end Sys2Proof.Machine
end

