-- ==== Sys2Proof/Machine/Branch.lean ====
section
/-! DEFINITION. `loop`, `cmp`, `jmp`, `jz`, `jnz`, `jgt` (spec/45_branch.md R125 to R132). -/

namespace Sys2Proof.Machine

/-- `loop INDEX` (R125): jump if C is not zero; C is only read. -/
def execLoop (index : Word) (s : State) : Host.Outcome State Fault Refusal :=
  dispatch 2 (branchIf (decide (s.c.toInt ≠ 0)) index s)

/-- `cmp REG1, REG2` (R126): `result <- wrap32(x[r1] - x[r2])`. -/
def execCmp (reg1 reg2 : Word) (s : State) : Host.Outcome State Fault Refusal :=
  dispatch 3 (withReg reg1 s fun r1 => withReg reg2 s fun r2 =>
    proceed { s with result := compareResult (s.reg r1) (s.reg r2) })

/-- `jmp INDEX` (R127). -/
def execJmp (index : Word) (s : State) : Host.Outcome State Fault Refusal := dispatch 2 (jumpTo index s)

/-- `jz INDEX` (R128). -/
def execJz (index : Word) (s : State) : Host.Outcome State Fault Refusal := dispatch 2 (branchIf s.resultZero index s)

/-- `jnz INDEX` (R129). -/
def execJnz (index : Word) (s : State) : Host.Outcome State Fault Refusal :=
  dispatch 2 (branchIf s.resultNonzero index s)

/-- `jgt INDEX` (R130). -/
def execJgt (index : Word) (s : State) : Host.Outcome State Fault Refusal :=
  dispatch 2 (branchIf s.resultPositive index s)

end Sys2Proof.Machine
end

