-- ==== Sys2Proof/Machine/CallReturn.lean ====
section
/-! DEFINITION. `call` and `ret` (spec/46_call_return.md R135, R136). -/

namespace Sys2Proof.Machine

/-- `call INDEX` (R135): push the index of the instruction after the call, then jump. -/
def execCall (index : Word) (s : State) : Host.Outcome State Fault Refusal :=
  dispatch 2 (pushThen (s.ip + 2) s (jumpTo index))

/-- `ret` (R136): jump to the word on top of the stack and zero the slot it leaves. -/
def execRet (s : State) : Host.Outcome State Fault Refusal :=
  dispatch 1 (
    if s.stackSize = 0 then raise .invalidStackOperation s
    else readThen s.topSlot s fun target => writeThen s.topSlot 0 s fun s' =>
      jumpTo target { s' with stackSize := s.stackSize - 1 })

end Sys2Proof.Machine
end

