-- ==== Sys2Proof/Machine/Control.lean ====
section
/-! DEFINITION. `nop` and `halt` (spec/40_dispatch.md R80, R81). -/

namespace Sys2Proof.Machine

/-- `nop` (R80): the handler advances `IP` itself and returns `SIG_JUMPED` (C7; log 34). -/
def execNop (s : State) : Host.Outcome State Fault Refusal := dispatch 1 (jumpTo (s.ip + 1) s)

/-- `halt` (R81): status Halted, `IP` moved by `HALT_IP_ADVANCE`, `SIG_FAIL` (C4, D9; log 9). -/
def execHalt (s : State) : Host.Outcome State Fault Refusal :=
  dispatch 1 (raise .halted { s with ip := s.ip + s.params.haltAdvance })

end Sys2Proof.Machine
end

