-- ==== Sys2Proof/Machine/DataMovement.lean ====
section
/-! DEFINITION. `movr` and `swap` (spec/42_data_movement.md R100, R101). -/

namespace Sys2Proof.Machine

/-- `movr REG, VALUE` (R100): the whole immediate word goes to the register. -/
def execMovr (reg value : Word) (s : State) : Host.Outcome State Fault Refusal :=
  dispatch 3 (withReg reg s fun r => proceed (s.setReg r value))

/-- `swap REG1, REG2` (R101): both selectors are checked, REG1 first, before either register is written. -/
def execSwap (reg1 reg2 : Word) (s : State) : Host.Outcome State Fault Refusal :=
  dispatch 3 (withReg reg1 s fun r1 => withReg reg2 s fun r2 =>
    proceed ((s.setReg r1 (s.reg r2)).setReg r2 (s.reg r1)))

end Sys2Proof.Machine
end

