-- ==== Sys2Proof/Machine/InputOutput.lean ====
section
/-! DEFINITION. `in`, `get`, `out`, `put` (spec/44_io.md R117 to R120). -/

namespace Sys2Proof.Machine

/-- `in REG` (R117): the selector is checked before the request is made. -/
def execInp (reg : Word) (s : State) : Host.Outcome State Fault Refusal :=
  dispatch 2 (withReg reg s fun r => .next (receive r s.ports.inInt.1 { s with ports := s.ports.inInt.2 }))

/-- `get REG` (R118): as `in`, with one character, stored as its unsigned value. -/
def execGet (reg : Word) (s : State) : Host.Outcome State Fault Refusal :=
  dispatch 2 (withReg reg s fun r =>
    .next (receive r (charAsWord s.ports.inChar.1) { s with ports := s.ports.inChar.2 }))

/-- `out REG` (R119). -/
def execOut (reg : Word) (s : State) : Host.Outcome State Fault Refusal :=
  dispatch 2 (withReg reg s fun r => proceed (s.emit (.outInt (s.reg r))))

/-- `put REG` (R120): a value outside 0 .. 254 raises IllegalOperand (D20; log 20). -/
def execPut (reg : Word) (s : State) : Host.Outcome State Fault Refusal :=
  dispatch 2 (withReg reg s fun r =>
    if (s.reg r).toInt < 0 ∨ 254 < (s.reg r).toInt then raise .illegalOperand s
    else proceed (s.emit (.outByte ((s.reg r).setWidth 8))))

end Sys2Proof.Machine
end

