-- ==== Sys2Proof/Machine/Stack.lean ====
section
/-! DEFINITION. `load`, `store`, `push`, `pop` (spec/43_stack.md R105 to R109). -/

namespace Sys2Proof.Machine

/-- `load REG, OFFSET` (R106): the slot is computed with the old D. -/
def execLoad (reg offset : Word) (s : State) : Host.Outcome State Fault Refusal :=
  dispatch 3 (withReg reg s fun r => withFrameSlot offset s fun slot =>
    readThen slot s fun v => proceed (s.setReg r v))

/-- `store REG, OFFSET` (R107). -/
def execStore (reg offset : Word) (s : State) : Host.Outcome State Fault Refusal :=
  dispatch 3 (withReg reg s fun r => withFrameSlot offset s fun slot => writeThen slot (s.reg r) s proceed)

/-- `push REG` (R108). -/
def execPush (reg : Word) (s : State) : Host.Outcome State Fault Refusal :=
  dispatch 2 (withReg reg s fun r => pushThen (s.reg r) s proceed)

/-- `pop REG` (R109): the vacated slot keeps its value (D11; log 11). -/
def execPop (reg : Word) (s : State) : Host.Outcome State Fault Refusal :=
  dispatch 2 (withReg reg s fun r =>
    if s.stackSize = 0 then raise .invalidStackOperation s
    else readThen s.topSlot s fun v => proceed { s.setReg r v with stackSize := s.stackSize - 1 })

end Sys2Proof.Machine
end

