-- ==== Sys2Proof/Machine/Dispatch.lean ====
section
/-! DEFINITION. The instruction table's handlers: one arm per instruction (spec/40_dispatch.md R74). -/

namespace Sys2Proof.Machine

def exec (i : Instr) (s : State) : Host.Outcome State Fault Refusal :=
  match i with
  | .nop => Sys2Proof.Machine.execNop s
  | .halt => Sys2Proof.Machine.execHalt s
  | .add reg => Sys2Proof.Machine.execAdd reg s
  | .sub reg => Sys2Proof.Machine.execSub reg s
  | .mul reg => Sys2Proof.Machine.execMul reg s
  | .div reg => Sys2Proof.Machine.execDiv reg s
  | .inc reg => Sys2Proof.Machine.execInc reg s
  | .dec reg => Sys2Proof.Machine.execDec reg s
  | .loop index => Sys2Proof.Machine.execLoop index s
  | .movr reg value => Sys2Proof.Machine.execMovr reg value s
  | .load reg offset => Sys2Proof.Machine.execLoad reg offset s
  | .store reg offset => Sys2Proof.Machine.execStore reg offset s
  | .inp reg => Sys2Proof.Machine.execInp reg s
  | .get reg => Sys2Proof.Machine.execGet reg s
  | .out reg => Sys2Proof.Machine.execOut reg s
  | .put reg => Sys2Proof.Machine.execPut reg s
  | .swap reg1 reg2 => Sys2Proof.Machine.execSwap reg1 reg2 s
  | .push reg => Sys2Proof.Machine.execPush reg s
  | .pop reg => Sys2Proof.Machine.execPop reg s
  | .cmp reg1 reg2 => Sys2Proof.Machine.execCmp reg1 reg2 s
  | .jmp index => Sys2Proof.Machine.execJmp index s
  | .jz index => Sys2Proof.Machine.execJz index s
  | .jnz index => Sys2Proof.Machine.execJnz index s
  | .jgt index => Sys2Proof.Machine.execJgt index s
  | .call index => Sys2Proof.Machine.execCall index s
  | .ret => Sys2Proof.Machine.execRet s

end Sys2Proof.Machine
end

