-- ==== Sys2Proof/Machine/Step.lean ====
section
/-! DEFINITION. The single step (spec/40_dispatch.md R70) and where an instruction is placed to be fetched next. -/

namespace Sys2Proof.Machine

/-- One `step` transaction (R70): on a stopped machine nothing (R79); else the checks and the fetch, whose failure is taken as
an exception (R71 to R73), then the handler (R74). Its answer is `State.stepOk` of the state it ends in (R78). -/
def step (s : State) : Host.Outcome State Fault Refusal :=
  if s.status = .ok then
    match fetch s with
    | .ok i => exec i s
    | .error st => .next (s.fail st)
  else .next s

/-- The state with an instruction's words placed at `IP`, where the next step fetches (log 28). -/
def State.withFetchWord (s : State) (nbits w : Nat) : State :=
  { s with mem := s.mem.placeWords s.ip.toInt.toNat (tableWords nbits w) }

end Sys2Proof.Machine
end

