-- ==== Sys2Proof/Machine/HostInterface.lean ====
section
/-! DEFINITION. The host's transactions on the unit (spec/10_state.md R24, spec/70_reset_and_hazards.md R160 to R166). A unit
not created, or destroyed, has no state: it is `none` (R166; log 19). -/

namespace Sys2Proof.Machine

/-- `create` (R160): wire Memory and the parameters, then reset. The image gives the words from index 0 on, the rest is zero
(spec/20_memory.md R36); outside spec/10_state.md R20 there is no meaning (log 17). The ports are the host's: it says with
which record of them the unit starts, a new one or the one it kept from a unit destroyed before (DESIGN CHOICE, log 35). -/
def create (image : List Word) (params : Params) (ports : Ports) : Host.Outcome State Fault Refusal :=
  if params.wellFormed ∧ image.length ≤ params.stackLimit then
    .next (State.resetUnit
      { a := 0, b := 0, c := 0, d := 0, ip := 0, status := .ok, stackSize := 0, result := 0
        mem := Memory.placeWords [] 0 image, params := params, ports := ports })
  else .refused .badGeometry

/-- `peek` (R164, D23; log 23). -/
def State.peek (s : State) (name : Char) : Word :=
  if name = 'A' then s.a
  else if name = 'B' then s.b
  else if name = 'C' then s.c
  else if name = 'D' then s.d
  else if name = 'S' then s.stackSize
  else if name = 'I' then s.ip
  else 0

/-- A transaction the host issues (spec/10_state.md R24). -/
inductive Request where
  | create (image : List Word) (params : Params) (ports : Ports)
  | reset
  | destroy
  | step
  | status
  | peek (name : Char)
  deriving DecidableEq, Repr

/-- What a transaction answers (spec/10_state.md R24). -/
inductive Reply where
  /-- no answer: create, reset, destroy -/
  | done
  /-- `step_ok` (spec/40_dispatch.md R78) -/
  | stepOk (ok : Bool)
  /-- the status code (R163) -/
  | status (st : Status)
  /-- the value peeked at (R164) -/
  | peek (v : Word)
  deriving DecidableEq, Repr

/-- One transaction: the unit after it and its answer. Nothing but create has a meaning on a unit that does not exist (R166);
create on one that exists is refused (DESIGN CHOICE, log 32). Destroy leaves no state at all: the record of the host's side of
the ports, its unread answers and the events it has received, goes with the unit, and the next create brings its own
(DESIGN CHOICE, log 35). -/
def transact (unit : Option State) (req : Request) : Host.Outcome (Option State × Reply) Fault Refusal :=
  match unit, req with
  | none, .create image params ports =>
    match create image params ports with
    | .next s => .next (some s, .done)
    | .fault f => .fault f
    | .refused r => .refused r
  | none, _ => .refused .notCreated
  | some _, .create _ _ _ => .refused .alreadyCreated
  | some s, .reset => .next (some s.resetUnit, .done)
  | some _, .destroy => .next (none, .done)
  | some s, .step =>
    match step s with
    | .next s' => .next (some s', .stepOk s'.stepOk)
    | .fault f => .fault f
    | .refused r => .refused r
  | some s, .status => .next (some s, .status s.status)
  | some s, .peek name => .next (some s, .peek (s.peek name))

/-- A host's sequence of transactions, none overlapping another (spec/10_state.md R24): the unit after them and their answers
in order. -/
def session (unit : Option State) : List Request → Host.Outcome (Option State × List Reply) Fault Refusal
  | [] => .next (unit, [])
  | req :: reqs =>
    match transact unit req with
    | .next (unit', reply) =>
      match session unit' reqs with
      | .next (unit'', replies) => .next (unit'', reply :: replies)
      | .fault f => .fault f
      | .refused r => .refused r
    | .fault f => .fault f
    | .refused r => .refused r

/-- The run driver's loop (R165) with `budget` steps left and `n` steps done: the state it stops in and its answer. -/
def runFrom : Nat → Int → State → Host.Outcome (State × Int) Fault Refusal
  | 0, n, s => .next (s, n)
  | budget + 1, n, s =>
    match step s with
    | .next s' =>
      if s'.status = .halted then .next (s', n + 1)
      else if s'.status ≠ .ok then .next (s', -(n + 1))
      else runFrom budget (n + 1) s'
    | .fault f => .fault f
    | .refused r => .refused r

/-- `run(maxSteps)` (R165, D15; log 15): a budget of zero or less does nothing and answers 0. -/
def run (maxSteps : Int) (s : State) : Host.Outcome (State × Int) Fault Refusal := runFrom maxSteps.toNat 0 s

end Sys2Proof.Machine
end

