-- ==== Sys2Proof/Safety.lean ====
section
/-! DEFINITION. What a sound state is, and what counts as a safe step. -/

namespace Sys2Proof.Machine

/-- The model's invariant: every unit that create makes has it, and every step and every reset keeps it. -/
structure State.Inv (s : State) : Prop where
  /-- the parameters are legal (spec/00_scope.md R1, spec/10_state.md R20) -/
  geometry : s.params.wellFormed
  /-- `0 ≤ stackSize` (spec/10_state.md R18, R25) -/
  stackNonneg : 0 ≤ s.stackSize.toInt
  /-- `stackSize ≤ stackCapacity` (spec/10_state.md R18, R25) -/
  stackBounded : s.stackSize.toInt ≤ s.params.stackCapacity
  /-- Memory is in its canonical form -/
  memWf : s.mem.wf
  /-- Memory lists no byte of a word at or above `MEM_WORDS` (spec/20_memory.md R30) -/
  memWithin : ∀ cell ∈ s.mem, cell.1 < 4 * s.params.memWords
  /-- the boundary word at `stackLimit` is 0 (spec/20_memory.md R33) -/
  boundaryZero : s.mem.readWord s.params.stackLimit.toNat = 0
  /-- the result register, which `BASE` does not have, keeps its reset value there (spec/10_state.md R21; log 24) -/
  baseResult : s.params.isaConfig = .base → s.result = 0

/-- The one condition under which the model gives a step from a sound state no meaning: the instruction fetched is `div`, its
operands are −2^31 and −1, and `DIV_OVERFLOW` is `refuse` (spec/41_arithmetic.md R93; log 8). -/
def State.overflowingDiv (s : State) : Prop :=
  s.status = .ok ∧ s.params.divOverflow = .refuse ∧ s.a.toInt = -2147483648 ∧
    ∃ w r, fetch s = .ok (.div w) ∧ selected w = some r ∧ (s.reg r).toInt = -1

/-! ## What the spec lets an instruction touch, for the frames -/

/-- The operand words of an instruction that are register selectors (spec/30_encoding.md R55). -/
def selectorWords : Instr → List Word
  | .nop | .halt | .ret | .loop _ | .jmp _ | .jz _ | .jnz _ | .jgt _ | .call _ => []
  | .add w | .sub w | .mul w | .div w | .inc w | .dec w | .inp w | .get w | .out w | .put w | .push w | .pop w => [w]
  | .movr w _ | .load w _ | .store w _ => [w]
  | .swap w1 w2 | .cmp w1 w2 => [w1, w2]

/-- The general registers an instruction may write (spec/10_state.md R12 and each instruction's rule): A for the accumulating
instructions, the selected register for those that name their destination, C too for `in` and `get`. -/
def mayWriteReg : Instr → Reg → Prop
  | .add _, r | .sub _, r | .mul _, r | .div _, r => r = .A
  | .inc w, r | .dec w, r | .movr w _, r | .load w _, r | .pop w, r => w = r.selector
  | .inp w, r | .get w, r => w = r.selector ∨ r = .C
  | .swap w1 w2, r => w1 = r.selector ∨ w2 = r.selector
  | .nop, _ | .halt, _ | .loop _, _ | .store _ _, _ | .out _, _ | .put _, _ | .push _, _ | .cmp _ _, _ | .jmp _, _
  | .jz _, _ | .jnz _, _ | .jgt _, _ | .call _, _ | .ret, _ => False

/-- The word index an instruction stores to, computed as its meaning computes it; `none` for the instructions that store
nothing (spec/20_memory.md R32). -/
def storeSlot (s : State) : Instr → Option Int
  | .store _ offset => some (s.frameSlot offset)
  | .push _ | .call _ => some s.freeSlot
  | .ret => some s.topSlot
  | .nop | .halt | .add _ | .sub _ | .mul _ | .div _ | .inc _ | .dec _ | .loop _ | .movr _ _ | .load _ _ | .inp _ | .get _
  | .out _ | .put _ | .swap _ _ | .pop _ | .cmp _ _ | .jmp _ | .jz _ | .jnz _ | .jgt _ => none

end Sys2Proof.Machine
end

