-- ==== Sys2Proof/Certificates/Slice0/Obligations.lean ====
section
/-! DEFINITION. The statements for the provers. Each docstring says which rule of spec/ it formalises, and names the log entry
of every clause that is the spec's own decision or the model's choice. -/

open Sys2Proof Sys2Proof.Machine

/-! ## Encoding and decoding -/

/-- Words written out from the table of spec/30_encoding.md section 3 decode to the instruction they stand for, operands in
the table's order. The numbers are the spec's decision D1, the operand order D2 (logs 1, 2). -/
def Obligations.DecodeReadsTheSpecEncodings : Prop :=
  decode .jmpCall [1] = .ok (.halt, []) ∧
  decode .jmpCall [5, 1] = .ok (.div 1, []) ∧
  decode .jmpCall [9, 2, 0xFFFFFFFB] = .ok (.movr 2 (-5), []) ∧
  decode .jmpCall [11, 1, 0xFFFFFFFF] = .ok (.store 1 (-1), []) ∧
  decode .jmpCall [15, 3, 7] = .ok (.put 3, [7]) ∧
  decode .jmpCall [16, 0, 3] = .ok (.swap 0 3, []) ∧
  decode .jmpCall [21, 12] = .ok (.jz 12, []) ∧
  decode .jmpCall [24, 30] = .ok (.call 30, []) ∧
  decode .jmpCall [25] = .ok (.ret, [])

/-- Every instruction a configuration has, with every operand word, is read back from its encoding, as words with anything
after them and as the bytes of the program file (spec/30_encoding.md sections 1, 6; spec/20_memory.md section 3). -/
def Obligations.DecodeOfEncodeIsTheInstruction : Prop :=
  ∀ (cfg : IsaConfig) (i : Instr), i.wellFormed cfg = true →
    (∀ rest : List Word, decode cfg (encode i ++ rest) = .ok (i, rest)) ∧
      decodeBytes cfg (encodeBytes i) = .ok (i, [])

/-- The other direction: a word sequence that decodes is the encoding of a well-formed instruction followed by the words left
over (spec/30_encoding.md sections 4, 6). -/
def Obligations.DecodedWordsAreTheEncoding : Prop :=
  ∀ (cfg : IsaConfig) (words rest : List Word) (i : Instr), decode cfg words = .ok (i, rest) →
    i.wellFormed cfg = true ∧ words = encode i ++ rest

/-- R57: the configuration sets the number of opcodes and nothing else. Opcodes at or above it are illegal to the decoder and
to the step; below it the decoder is that of the full table; the handlers do not look at the configuration. -/
def Obligations.ConfigurationSetsOnlyTheOpcodeCount : Prop :=
  (IsaConfig.base.instructionCount = 19 ∧ IsaConfig.jmp.instructionCount = 24 ∧
    IsaConfig.jmpCall.instructionCount = 26) ∧
  (∀ (cfg : IsaConfig) (op : Word) (rest : List Word), (cfg.instructionCount : Int) ≤ op.toInt →
    decode cfg (op :: rest) = .error (.illegalOpcode op)) ∧
  (∀ s : State, s.status = .ok → s.ipInRange →
    (s.params.isaConfig.instructionCount : Int) ≤ (s.mem.readWord s.ip.toInt.toNat).toInt →
      step s = .next { s with status := .illegalInstruction }) ∧
  (∀ (cfg : IsaConfig) (op : Word) (rest : List Word), 0 ≤ op.toInt → op.toInt < cfg.instructionCount →
    decode cfg (op :: rest) = decode .jmpCall (op :: rest)) ∧
  (∀ (cfg : IsaConfig) (i : Instr) (s t : State), exec i s = .next t →
    exec i { s with params := { s.params with isaConfig := cfg } } =
      .next { t with params := { t.params with isaConfig := cfg } })

/-- The legal opcode words are exactly 0 .. instructionCount − 1, as signed integers. That `instructionCount` itself is illegal
is the spec's decision D3 (log 3). -/
def Obligations.OpcodeWordsOutsideTheTableAreIllegal : Prop :=
  ∀ (cfg : IsaConfig) (op : Word) (rest : List Word),
    decode cfg (op :: rest) = .error (.illegalOpcode op) ↔ ¬(0 ≤ op.toInt ∧ op.toInt < cfg.instructionCount)

/-! ## The dispatch loop -/

/-- A step runs the decoded instruction: when the unit runs, `IP` is not negative, the words at `IP` decode to an instruction
and the whole instruction lies below `stackLimit`, the step is exactly that instruction's meaning, whose state already holds
the new `IP` (spec/40_dispatch.md section 1). -/
def Obligations.StepRunsTheDecodedInstruction : Prop :=
  ∀ (s : State) (i : Instr) (rest : List Word), s.status = .ok → 0 ≤ s.ip.toInt →
    decode s.params.isaConfig [s.mem.readWord s.ip.toInt.toNat, s.mem.readWord (s.ip.toInt.toNat + 1),
      s.mem.readWord (s.ip.toInt.toNat + 2)] = .ok (i, rest) →
    s.ip.toInt + i.length ≤ s.params.stackLimit →
      step s = exec i s

/-- R79: a step on a machine whose status is not OK changes nothing and answers 0. -/
def Obligations.StepOnAStoppedMachineChangesNothing : Prop :=
  ∀ s : State, s.status ≠ .ok →
    step s = .next s ∧ transact (some s) .step = .next (some s, .stepOk false)

/-- R71: an `IP` outside `[0, stackLimit)`, as a signed integer, sets InvalidAddress and nothing else, whatever Memory holds,
and the step answers 0. No instruction detects a bad target itself: none of them sets InvalidAddress. -/
def Obligations.IpOutsideTheFetchRangeSetsInvalidAddress : Prop :=
  ∀ s : State, s.status = .ok →
    (¬(0 ≤ s.ip.toInt ∧ s.ip.toInt < s.params.stackLimit) →
      step s = .next { s with status := .invalidAddress } ∧
        transact (some s) .step = .next (some { s with status := .invalidAddress }, .stepOk false)) ∧
    ∀ (i : Instr) (t : State), exec i s = .next t → t.status ≠ .invalidAddress

/-- An opcode word that is negative or not below `instructionCount` sets IllegalInstruction and nothing else
(spec/40_dispatch.md section 1; the upper end is the spec's decision D3, log 3). -/
def Obligations.IllegalOpcodeSetsIllegalInstruction : Prop :=
  ∀ s : State, s.status = .ok → s.ipInRange →
    ¬(0 ≤ (s.mem.readWord s.ip.toInt.toNat).toInt ∧
      (s.mem.readWord s.ip.toInt.toNat).toInt < s.params.isaConfig.instructionCount) →
    step s = .next { s with status := .illegalInstruction } ∧
      transact (some s) .step = .next (some { s with status := .illegalInstruction }, .stepOk false)

/-- R73: an instruction of the configuration that does not lie whole below `stackLimit` sets InvalidAddress and nothing else,
whatever its operand words are; a one-word instruction cannot fail this check once `IP` is in range. -/
def Obligations.InstructionPastStackLimitSetsInvalidAddress : Prop :=
  ∀ (s : State) (i : Instr), s.status = .ok → s.ipInRange → i.wellFormed s.params.isaConfig = true →
    s.mem.readWord s.ip.toInt.toNat = BitVec.ofNat 32 i.opcode →
    (s.params.stackLimit < s.ip.toInt + i.length →
      step s = .next { s with status := .invalidAddress } ∧
        transact (some s) .step = .next (some { s with status := .invalidAddress }, .stepOk false)) ∧
    (i.length = 1 → s.ip.toInt + i.length ≤ s.params.stackLimit)

/-- R143: a step that sets a failure status writes `status` and nothing else of the unit, `IP` stays on the failing
instruction, and nothing is output; the one thing besides is what a malformed read took from the host's answers, which are
not state of the unit. -/
def Obligations.FailingStepWritesOnlyTheStatus : Prop :=
  ∀ s t : State, step s = .next t → s.status = .ok → t.status ≠ .ok → t.status ≠ .halted →
    t = { s with status := t.status, ports := t.ports } ∧ t.ports.output = s.ports.output ∧
      (t.status ≠ .ioError → t.ports = s.ports)

/-- Every status has exactly the cause the table of spec/60_exceptions.md section 1 gives it, for an instruction that was
fetched. The upper bound of `put`, the frame address in the integers and the selector checks coming first are the spec's
decisions D20, D12, D10 (logs 20, 12, 10). -/
def Obligations.EveryStatusHasItsCause : Prop :=
  ∀ (s t : State) (i : Instr), s.status = .ok → fetch s = .ok i → step s = .next t →
    (t.status = .halted ↔ i = .halt) ∧
    (t.status = .divByZero ↔ ∃ r : Reg, i = .div r.selector ∧ (s.reg r).toInt = 0) ∧
    (t.status = .invalidStackOperation ↔
      (∃ (r : Reg) (offset : Word), (i = .load r.selector offset ∨ i = .store r.selector offset) ∧
        (s.frameSlot offset ≤ s.params.stackLimit ∨ s.params.stackBottom < s.frameSlot offset)) ∨
      (((∃ r : Reg, i = .push r.selector) ∨ ∃ x, i = .call x) ∧ (s.params.stackCapacity : Int) ≤ s.stackSize.toInt) ∨
      (((∃ r : Reg, i = .pop r.selector) ∨ i = .ret) ∧ s.stackSize.toInt = 0)) ∧
    (t.status = .illegalOperand ↔
      (∃ w ∈ selectorWords i, 3 < w.toNat) ∨
      ∃ r : Reg, i = .put r.selector ∧ ((s.reg r).toInt < 0 ∨ 254 < (s.reg r).toInt)) ∧
    (t.status = .ioError ↔
      (∃ r : Reg, i = .inp r.selector ∧ s.ports.inInt.1 = .malformed) ∨
      ∃ r : Reg, i = .get r.selector ∧ s.ports.inChar.1 = .malformed) ∧
    t.status ≠ .invalidAddress ∧ t.status ≠ .illegalInstruction

/-- R34: an instruction fetch, operand words included, reads only words below `stackLimit`: two memories that agree there are
fetched from alike, and an instruction is fetched only where it lies whole in `[0, stackLimit)`. -/
def Obligations.FetchReadsOnlyWordsBelowStackLimit : Prop :=
  (∀ (s : State) (m : Memory), (∀ k : Nat, (k : Int) < s.params.stackLimit → m.readWord k = s.mem.readWord k) →
    fetch { s with mem := m } = fetch s) ∧
  (∀ (s : State) (i : Instr), fetch s = .ok i →
    0 ≤ s.ip.toInt ∧ s.ip.toInt < s.params.stackLimit ∧ s.ip.toInt + i.length - 1 < s.params.stackLimit)

/-- R35: data accesses of instructions reach only the stack region. A word outside it is never written; and no instruction
reads one: with another memory that agrees on the stack region, the instruction does the same and the stack region afterwards
is the same. -/
def Obligations.InstructionsTouchOnlyTheStackRegion : Prop :=
  ∀ (i : Instr) (s t : State), s.Inv → exec i s = .next t →
    (∀ k : Nat, ¬(s.params.stackLimit < k ∧ (k : Int) ≤ s.params.stackBottom) →
      t.mem.readWord k = s.mem.readWord k) ∧
    (∀ m : Memory, m.wf →
      (∀ k : Nat, s.params.stackLimit < k → (k : Int) ≤ s.params.stackBottom → m.readWord k = s.mem.readWord k) →
      ∃ m' : Memory, exec i { s with mem := m } = .next { t with mem := m' } ∧
        ∀ k : Nat, s.params.stackLimit < k → (k : Int) ≤ s.params.stackBottom → m'.readWord k = t.mem.readWord k) ∧
    (∀ offset : Word, ¬s.slotValid (s.frameSlot offset) → ∀ r : Reg,
      (i = .load r.selector offset ∨ i = .store r.selector offset) → t = { s with status := .invalidStackOperation }) ∧
    ((∃ r : Reg, i = .push r.selector) ∨ (∃ x, i = .call x) →
      (s.stackSize.toInt < s.params.stackCapacity → s.slotValid s.freeSlot) ∧
      ((s.params.stackCapacity : Int) ≤ s.stackSize.toInt →
        t = { s with status := .invalidStackOperation })) ∧
    ((∃ r : Reg, i = .pop r.selector) ∨ i = .ret →
      (0 < s.stackSize.toInt → s.slotValid s.topSlot) ∧
      (s.stackSize.toInt = 0 → t = { s with status := .invalidStackOperation }))

/-! ## Invariant and safety -/

/-- Every step keeps the model's invariant: legal parameters, `0 ≤ stackSize ≤ stackCapacity`, Memory in its canonical form and
inside `MEM_WORDS`, the boundary word 0, no result in `BASE` (spec/10_state.md section 10; spec/20_memory.md section 2). The
canonical form and the result field that stands unused in `BASE` are the model's own choices (logs 26, 24). -/
def Obligations.StepKeepsTheInvariant : Prop :=
  ∀ s t : State, s.Inv → step s = .next t → t.Inv

/-- The unit right after reset meets the invariant. Which unit that is, `JMP_CALL` with 2^31 words and an empty program, is the
model's own choice (log 27). -/
def Obligations.ResetStateMeetsTheInvariant : Prop := State.reset.Inv

/-- Whatever the host does, in any order, from no unit or from a sound one, the unit stays sound (spec/10_state.md sections 9,
10; spec/70_reset_and_hazards.md sections 1, 2). -/
def Obligations.EverySessionKeepsTheInvariant : Prop :=
  ∀ (unit unit' : Option State) (reqs : List Request) (replies : List Reply),
    (∀ s : State, unit = some s → s.Inv) → session unit reqs = .next (unit', replies) →
      ∀ t : State, unit' = some t → t.Inv

/-- A step from a sound state always has a next state, but for the one division the spec gives no meaning, which is refused;
it never faults (spec/70_reset_and_hazards.md section 4; the refusal is the spec's decision D8, log 8). That `in` and `get`
always end rests on the model's own choice that the host's answer to a request always comes (log 16), and that `out` and `put`
never fail or wait on the spec's decision D25 (log 25). -/
def Obligations.SoundStepNeverFaults : Prop :=
  ∀ s : State, s.Inv →
    (¬s.overflowingDiv → ∃ t : State, step s = .next t) ∧ (s.overflowingDiv → step s = .refused .divOverflow)

/-- The parameters are never changed by an instruction, a step, a reset or a run (spec/00_scope.md section 4;
spec/10_state.md sections 4, 11). -/
def Obligations.ParametersNeverChange : Prop :=
  (∀ (i : Instr) (s t : State), exec i s = .next t → t.params = s.params) ∧
  (∀ s t : State, step s = .next t → t.params = s.params) ∧
  (∀ s : State, s.resetUnit.params = s.params) ∧
  (∀ (maxSteps : Int) (s t : State) (n : Int), run maxSteps s = .next (t, n) → t.params = s.params)

/-- Memory in canonical form is determined by what it reads: equal memories are equal data (the model's representation,
log 26). -/
def Obligations.CanonicalMemoryIsDeterminedByItsReads : Prop :=
  ∀ m m' : Memory, m.wf → m'.wf → (∀ a : Nat, m.readByte a = m'.readByte a) → m = m'

/-! ## Reset and the host's transactions -/

/-- R161: reset, in any status, zeroes the registers, the result register, `stackSize`, `IP` and every word from `stackLimit` to
`stackBottom`, sets the status OK, and keeps the parameters and every other byte. -/
def Obligations.ResetZeroesRegistersAndStack : Prop :=
  ∀ s : State,
    transact (some s) .reset = .next (some s.resetUnit, .done) ∧
    s.resetUnit.a = 0 ∧ s.resetUnit.b = 0 ∧ s.resetUnit.c = 0 ∧ s.resetUnit.d = 0 ∧ s.resetUnit.result = 0 ∧
    s.resetUnit.status = .ok ∧ s.resetUnit.stackSize = 0 ∧ s.resetUnit.ip = 0 ∧ s.resetUnit.params = s.params ∧
    (∀ k : Nat, s.params.stackLimit ≤ k → (k : Int) ≤ s.params.stackBottom → s.resetUnit.mem.readWord k = 0) ∧
    (∀ a : Nat, (a : Int) < 4 * s.params.stackLimit ∨ 4 * (s.params.stackBottom + 1) ≤ a →
      s.resetUnit.mem.readByte a = s.mem.readByte a)

/-- After any session that does not destroy the unit, reset gives the same baseline back, Memory included, as reset before it
would; only the host's side of the ports has moved on. Two resets give the same state as one (spec/70_reset_and_hazards.md
section 1; that reset does not rewind the streams is the spec's own inference there). -/
def Obligations.ResetAfterAnySessionRestoresTheBaseline : Prop :=
  ∀ (s t : State) (reqs : List Request) (replies : List Reply), s.Inv → (∀ req ∈ reqs, req ≠ .destroy) →
    session (some s) reqs = .next (some t, replies) →
      t.resetUnit = { s.resetUnit with ports := t.ports } ∧ t.resetUnit.resetUnit = t.resetUnit

/-- R147: there is no recovery but reset. A unit whose status is not OK is left exactly as it is by every session of steps,
status reads and peeks, so its first status stays; reset makes it run again from index 0, with registers and stack lost and
the program words kept. -/
def Obligations.StoppedUnitStaysStoppedUntilReset : Prop :=
  ∀ s : State, s.status ≠ .ok →
    (∀ reqs : List Request, (∀ req ∈ reqs, req = .step ∨ req = .status ∨ ∃ name, req = .peek name) →
      ∃ replies, session (some s) reqs = .next (some s, replies)) ∧
    s.resetUnit.status = .ok ∧ s.resetUnit.ip = 0 ∧ (∀ r : Reg, s.resetUnit.reg r = 0) ∧ s.resetUnit.stackSize = 0 ∧
    (∀ k : Nat, s.params.stackLimit < k → (k : Int) ≤ s.params.stackBottom → s.resetUnit.mem.readWord k = 0) ∧
    (∀ k : Nat, (k : Int) < s.params.stackLimit → s.resetUnit.mem.readWord k = s.mem.readWord k)

/-- Create with a legal geometry makes a unit right after reset whose words are the image and then zeros; outside the
constraints it is refused (spec/70_reset_and_hazards.md section 1; spec/20_memory.md section 3; the constraints are the spec's
decision D17, the zeros D22: logs 17, 22). -/
def Obligations.CreateWiresTheImageAndResets : Prop :=
  ∀ (image : List Word) (params : Params) (ports : Ports),
    (params.wellFormed → (image.length : Int) ≤ params.stackLimit →
      ∃ s : State, create image params ports = .next s ∧ s.params = params ∧ s.ports = ports ∧
        (∀ r : Reg, s.reg r = 0) ∧ s.ip = 0 ∧ s.status = .ok ∧ s.stackSize = 0 ∧ s.result = 0 ∧
        (∀ k : Nat, s.mem.readWord k = image.getD k 0) ∧ s.resetUnit = s) ∧
    (¬params.wellFormed ∨ params.stackLimit < image.length → create image params ports = .refused .badGeometry)

/-- On a unit not created or destroyed every transaction but create is refused; destroy unwires the unit; create on an existing
unit is refused (spec/70_reset_and_hazards.md section 1; the spec's decision D19, log 19). That create on an existing unit is
refused, and that destroy leaves nothing of the host's side of the ports either, are the model's own choices (logs 32, 35). -/
def Obligations.UncreatedUnitRefusesAllButCreate : Prop :=
  (∀ req : Request, (∀ image params ports, req ≠ .create image params ports) →
    transact none req = .refused .notCreated) ∧
  (∀ s : State, transact (some s) .destroy = .next (none, .done)) ∧
  (∀ (s : State) (image : List Word) (params : Params) (ports : Ports),
    transact (some s) (.create image params ports) = .refused .alreadyCreated) ∧
  (∀ (image : List Word) (params : Params) (ports : Ports) (s : State), create image params ports = .next s →
    transact none (.create image params ports) = .next (some s, .done))

/-- `peek` answers the six names and 0 for any other, `status` the status register, and neither changes anything
(spec/70_reset_and_hazards.md section 2; the exact set of names is the spec's decision D23, log 23). -/
def Obligations.PeekAndStatusReadWithoutEffect : Prop :=
  ∀ s : State,
    transact (some s) .status = .next (some s, .status s.status) ∧
    (∀ name : Char, transact (some s) (.peek name) = .next (some s, .peek (s.peek name))) ∧
    s.peek 'A' = s.a ∧ s.peek 'B' = s.b ∧ s.peek 'C' = s.c ∧ s.peek 'D' = s.d ∧ s.peek 'S' = s.stackSize ∧
    s.peek 'I' = s.ip ∧
    (∀ name : Char, name ∉ ['A', 'B', 'C', 'D', 'S', 'I'] → s.peek name = 0)

/-- `run` stops after the first step that leaves a status other than OK, or when the budget is used up; it answers how many
steps it made, negated when the status is a failure; with no budget it does nothing and answers 0
(spec/70_reset_and_hazards.md section 2; its answers on an exhausted budget and on a stopped machine are the spec's decision
D15, log 15). -/
def Obligations.RunCountsStepsToTheFirstTerminalStatus : Prop :=
  (∀ (maxSteps : Int) (s : State), maxSteps ≤ 0 → run maxSteps s = .next (s, 0)) ∧
  (∀ (maxSteps : Int) (s t : State) (answer : Int), 0 < maxSteps → run maxSteps s = .next (t, answer) →
    ∃ n : Nat, 1 ≤ n ∧ (n : Int) ≤ maxSteps ∧ core.run n s = .next t ∧
      (∀ (k : Nat) (u : State), 0 < k → k < n → core.run k s = .next u → u.status = .ok) ∧
      (t.status = .ok → (n : Int) = maxSteps) ∧
      answer = if t.status = .ok ∨ t.status = .halted then (n : Int) else -(n : Int))

/-! ## What instructions leave alone -/

/-- R11: a selector word names A, B, C, D when its value is 0, 1, 2, 3, and every other word in a selector's place sets
IllegalOperand and nothing else, for every instruction with a selector. -/
def Obligations.BadSelectorSetsIllegalOperand : Prop :=
  (∀ (w : Word) (r : Reg), selected w = some r ↔
    (w.toInt = 0 ∧ r = .A) ∨ (w.toInt = 1 ∧ r = .B) ∨ (w.toInt = 2 ∧ r = .C) ∨ (w.toInt = 3 ∧ r = .D)) ∧
  (∀ (i : Instr) (s : State), (∃ w ∈ selectorWords i, ¬(0 ≤ w.toInt ∧ w.toInt ≤ 3)) →
    exec i s = .next { s with status := .illegalOperand })

/-- Writing a general register changes that register and nothing else (spec/10_state.md section 1). -/
def Obligations.RegistersAreIndependent : Prop :=
  ∀ (s : State) (r : Reg) (v : Word),
    (s.setReg r v).reg r = v ∧ (∀ r' : Reg, r' ≠ r → (s.setReg r v).reg r' = s.reg r') ∧
    (s.setReg r v).ip = s.ip ∧ (s.setReg r v).status = s.status ∧ (s.setReg r v).stackSize = s.stackSize ∧
    (s.setReg r v).result = s.result ∧ (s.setReg r v).mem = s.mem ∧ (s.setReg r v).params = s.params ∧
    (s.setReg r v).ports = s.ports

/-- Memory frame, for all 26 instructions: where the form stores nothing every byte reads as before; where it stores, every
byte outside the four of the word at the index it stores to reads as before (spec/20_memory.md section 1). -/
def Obligations.InstructionsStoreOnlyToTheirSlot : Prop :=
  ∀ (i : Instr) (s t : State), exec i s = .next t →
    (storeSlot s i = none → ∀ a : Nat, t.mem.readByte a = s.mem.readByte a) ∧
    (∀ slot : Int, storeSlot s i = some slot →
      ∀ a : Nat, ¬(4 * slot ≤ a ∧ (a : Int) < 4 * slot + 4) → t.mem.readByte a = s.mem.readByte a)

/-- Register frame, for all 26 instructions: a general register that is not the instruction's destination (A for `add`, `sub`,
`mul`, `div`; the selected register for `inc`, `dec`, `movr`, `load`, `pop`, `in`, `get`; both for `swap`; C too for `in`,
`get`) keeps its value (spec/10_state.md section 1). -/
def Obligations.OnlyDestinationRegistersChange : Prop :=
  ∀ (i : Instr) (s t : State) (r : Reg), exec i s = .next t → ¬mayWriteReg i r → t.reg r = s.reg r

/-- Frame of the rest, for all 26 instructions: `stackSize` changes only by `push`, `pop`, `call`, `ret`; `result` only by `cmp`;
the output only by `out` and `put`; the host's listed answers to each kind of request only by `in` and by `get`, and the count
of free answers only by these two; the parameters never; and the status stays as it was or becomes Halted or one of the four
failure statuses a handler can set (spec/10_state.md sections 3, 4, 5; spec/44_io.md sections 1, 2). The answer lists and the count
are the model's own fields, its choice of how to hold the host's side of the ports (log 29). -/
def Obligations.SpecialRegistersChangeOnlyWhereNamed : Prop :=
  ∀ (i : Instr) (s t : State), exec i s = .next t →
    (t.stackSize ≠ s.stackSize → (∃ w, i = .push w) ∨ (∃ w, i = .pop w) ∨ (∃ x, i = .call x) ∨ i = .ret) ∧
    (t.result ≠ s.result → ∃ w1 w2, i = .cmp w1 w2) ∧
    (t.ports.output ≠ s.ports.output → (∃ w, i = .out w) ∨ ∃ w, i = .put w) ∧
    (t.ports.intAnswers ≠ s.ports.intAnswers → ∃ w, i = .inp w) ∧
    (t.ports.charAnswers ≠ s.ports.charAnswers → ∃ w, i = .get w) ∧
    (t.ports.draws ≠ s.ports.draws → (∃ w, i = .inp w) ∨ ∃ w, i = .get w) ∧
    t.params = s.params ∧
    (t.status = s.status ∨ t.status = .halted ∨ t.status = .illegalOperand ∨ t.status = .invalidStackOperation ∨
      t.status = .divByZero ∨ t.status = .ioError)

/-! ## Control -/

/-- R80: `nop`, encoded as the word 0 in every configuration, moves `IP` by one and changes nothing else; where the word at an
`IP` in range is 0, that is what the step does, and it answers 1. Where every word from `IP` up to `stackLimit` is 0, the run is
one of `nop`s that ends with InvalidAddress when `IP` reaches `stackLimit`. -/
def Obligations.NopOnlyAdvancesIp : Prop :=
  (Instr.nop.format = .F0 ∧ Instr.nop.length = 1 ∧ encode .nop = [0] ∧ ∀ cfg, Instr.nop.wellFormed cfg = true) ∧
  (∀ s : State, exec .nop s = .next { s with ip := s.ip + 1 }) ∧
  (∀ s : State, s.status = .ok → s.ipInRange → s.mem.readWord s.ip.toInt.toNat = 0 →
    transact (some s) .step = .next (some { s with ip := s.ip + 1 }, .stepOk true)) ∧
  (∀ s : State, s.params.wellFormed → s.status = .ok → 0 ≤ s.ip.toInt → s.ip.toInt ≤ s.params.stackLimit →
    (∀ k : Nat, s.ip.toInt ≤ k → (k : Int) < s.params.stackLimit → s.mem.readWord k = 0) →
    ∃ (n : Nat) (t : State), (n : Int) = s.params.stackLimit - s.ip.toInt + 1 ∧ core.run n s = .next t ∧
      t = { s with status := .invalidAddress, ip := t.ip } ∧ t.ip.toInt = s.params.stackLimit)

/-- `halt` sets Halted and changes nothing else, but that `IP` moves by one where `HALT_IP_ADVANCE` is 1
(spec/40_dispatch.md section 3; the spec's decision D9, log 9). -/
def Obligations.HaltSetsHalted : Prop :=
  ∀ s : State,
    (s.params.haltIpAdvance = 0 → exec .halt s = .next { s with status := .halted }) ∧
    (s.params.haltIpAdvance = 1 → exec .halt s = .next { s with status := .halted, ip := s.ip + 1 })

/-! ## Arithmetic -/

/-- `add`, `sub`, `mul` leave in A the sum, difference or product of A and the register, reduced modulo 2^32, the exact one when
it fits in 32 bits, and change nothing else but `IP` (spec/41_arithmetic.md sections 1, 2; the wrap is the spec's decision D6,
log 6). -/
def Obligations.AddSubMulWrapIntoA : Prop :=
  ∀ (s : State) (r : Reg) (i : Instr) (exact : Int),
    (i = .add r.selector ∧ exact = s.a.toInt + (s.reg r).toInt) ∨
    (i = .sub r.selector ∧ exact = s.a.toInt - (s.reg r).toInt) ∨
    (i = .mul r.selector ∧ exact = s.a.toInt * (s.reg r).toInt) →
    ∃ v : Word, exec i s = .next { s with a := v, ip := s.ip + 2 } ∧ (4294967296 : Int) ∣ v.toInt - exact ∧
      (-2147483648 ≤ exact → exact ≤ 2147483647 → v.toInt = exact)

/-- `inc` and `dec` add and subtract one, modulo 2^32, and change nothing but the register and `IP`
(spec/41_arithmetic.md sections 1, 2; the wrap is the spec's decision D6, log 6). -/
def Obligations.IncDecWrapTheRegister : Prop :=
  ∀ (s : State) (r : Reg),
    (∃ v : Word, exec (.inc r.selector) s = .next { s.setReg r v with ip := s.ip + 2 } ∧
      v.toInt = if (s.reg r).toInt = 2147483647 then -2147483648 else (s.reg r).toInt + 1) ∧
    (∃ v : Word, exec (.dec r.selector) s = .next { s.setReg r v with ip := s.ip + 2 } ∧
      v.toInt = if (s.reg r).toInt = -2147483648 then 2147483647 else (s.reg r).toInt - 1)

/-- `div` by a register that is not 0 (and not the pair −2^31 / −1) leaves in A the quotient rounded toward zero: the one whose
remainder is smaller than the divisor and has the dividend's sign. Nothing else changes but `IP` (spec/41_arithmetic.md
section 2; the rounding is the spec's decision D7, log 7). -/
def Obligations.DivRoundsTowardZero : Prop :=
  ∀ (s : State) (r : Reg), (s.reg r).toInt ≠ 0 → ¬(s.a.toInt = -2147483648 ∧ (s.reg r).toInt = -1) →
    ∃ q : Word, exec (.div r.selector) s = .next { s with a := q, ip := s.ip + 2 } ∧
      ∃ rem : Int, s.a.toInt = q.toInt * (s.reg r).toInt + rem ∧ |rem| < |(s.reg r).toInt| ∧ 0 ≤ rem * s.a.toInt

/-- `div` by a register that holds 0 sets DivByZero, and A and everything else keep their values
(spec/41_arithmetic.md section 2). -/
def Obligations.DivByZeroLeavesAUnmodified : Prop :=
  ∀ (s : State) (r : Reg), (s.reg r).toInt = 0 →
    exec (.div r.selector) s = .next { s with status := .divByZero }

/-- −2^31 / −1 is what `DIV_OVERFLOW` says: refused, or −2^31 in A (spec/41_arithmetic.md section 2; the spec's decision D8,
log 8). -/
def Obligations.DivOverflowFollowsTheParameter : Prop :=
  ∀ (s : State) (r : Reg), s.a.toInt = -2147483648 → (s.reg r).toInt = -1 →
    (s.params.divOverflow = .refuse → exec (.div r.selector) s = .refused .divOverflow) ∧
    (s.params.divOverflow = .wrap → exec (.div r.selector) s = .next { s with ip := s.ip + 2 })

/-! ## Data movement -/

/-- R100: `movr` copies the whole immediate word into the register, which `peek` then shows; a bad selector sets IllegalOperand;
nothing else changes. -/
def Obligations.MovrLoadsTheImmediate : Prop :=
  ∀ (s : State) (value : Word),
    (∀ w : Word, (Instr.movr w value).format = .FRV ∧ (Instr.movr w value).length = 3) ∧
    (∀ r : Reg, exec (.movr r.selector value) s = .next { s.setReg r value with ip := s.ip + 3 }) ∧
    (∀ w : Word, 3 < w.toNat → exec (.movr w value) s = .next { s with status := .illegalOperand }) ∧
    (∀ (r : Reg) (t : State), exec (.movr r.selector value) s = .next t →
      t.peek (match r with | .A => 'A' | .B => 'B' | .C => 'C' | .D => 'D') = value)

/-- R101: `swap` exchanges two registers; with one register twice it changes nothing but `IP`; with either selector bad it sets
IllegalOperand and nothing else. -/
def Obligations.SwapExchangesTwoRegisters : Prop :=
  ∀ s : State,
    (∀ w1 w2 : Word, (Instr.swap w1 w2).format = .FRR ∧ (Instr.swap w1 w2).length = 3) ∧
    (∀ r1 r2 : Reg, ∃ t : State, exec (.swap r1.selector r2.selector) s = .next t ∧
      t.reg r1 = s.reg r2 ∧ t.reg r2 = s.reg r1 ∧ (∀ r : Reg, r ≠ r1 → r ≠ r2 → t.reg r = s.reg r) ∧
      t.ip = s.ip + 3 ∧ t.status = s.status ∧ t.stackSize = s.stackSize ∧ t.result = s.result ∧ t.mem = s.mem ∧
      t.params = s.params ∧ t.ports = s.ports) ∧
    (∀ r : Reg, exec (.swap r.selector r.selector) s = .next { s with ip := s.ip + 3 }) ∧
    (∀ w1 w2 : Word, 3 < w1.toNat ∨ 3 < w2.toNat → exec (.swap w1 w2) s = .next { s with status := .illegalOperand })

/-! ## Stack -/

/-- `load` copies the word at slot `stackBottom − stackSize + D + OFFSET + 1`, computed with the old D in the unbounded integers,
when it lies in the stack region; nothing else changes but `IP` (spec/43_stack.md sections 1, 2; the unbounded sum is the
spec's decision D12, log 12). -/
def Obligations.LoadReadsTheFrameSlot : Prop :=
  ∀ (s : State) (r : Reg) (offset : Word) (slot : Int), s.params.wellFormed →
    slot = s.params.stackBottom - s.stackSize.toInt + s.d.toInt + offset.toInt + 1 →
    s.params.stackLimit < slot → slot ≤ s.params.stackBottom →
      exec (.load r.selector offset) s = .next { s.setReg r (s.mem.readWord slot.toNat) with ip := s.ip + 3 }

/-- `store` writes the register to that slot: the word reads back as the register, every byte outside it reads as before, and
nothing else changes but `IP` (spec/43_stack.md sections 1, 2; D12, log 12). -/
def Obligations.StoreWritesTheFrameSlot : Prop :=
  ∀ (s : State) (r : Reg) (offset : Word) (slot : Int), s.params.wellFormed → s.mem.wf →
    slot = s.params.stackBottom - s.stackSize.toInt + s.d.toInt + offset.toInt + 1 →
    s.params.stackLimit < slot → slot ≤ s.params.stackBottom →
      ∃ m : Memory, exec (.store r.selector offset) s = .next { s with mem := m, ip := s.ip + 3 } ∧
        m.readWord slot.toNat = s.reg r ∧
        ∀ a : Nat, ¬(4 * slot ≤ a ∧ (a : Int) < 4 * slot + 4) → m.readByte a = s.mem.readByte a

/-- `load` and `store` with a slot outside the stack region set InvalidStackOperation and nothing else, however far the sum of D
and OFFSET is out (spec/43_stack.md sections 1, 2; D12, log 12). -/
def Obligations.FrameSlotOutsideTheStackFails : Prop :=
  ∀ (s : State) (r : Reg) (offset : Word) (slot : Int),
    slot = s.params.stackBottom - s.stackSize.toInt + s.d.toInt + offset.toInt + 1 →
    slot ≤ s.params.stackLimit ∨ s.params.stackBottom < slot →
      exec (.load r.selector offset) s = .next { s with status := .invalidStackOperation } ∧
      exec (.store r.selector offset) s = .next { s with status := .invalidStackOperation }

/-- R108: `push` writes the register to `stackBottom − stackSize`, a slot of the stack region, and counts it; a full stack sets
InvalidStackOperation and a bad selector IllegalOperand, and then nothing else changes; with capacity 0 every push fails. The
first push fills `stackBottom`, the last `stackLimit + 1`. -/
def Obligations.PushWritesTheNextFreeSlot : Prop :=
  ∀ s : State,
    (∀ w : Word, (Instr.push w).format = .FR ∧ (Instr.push w).length = 2) ∧
    (∀ r : Reg, s.Inv → s.stackSize.toInt < s.params.stackCapacity →
      ∃ (slot : Nat) (t : State), (slot : Int) = s.params.stackBottom - s.stackSize.toInt ∧
        exec (.push r.selector) s = .next t ∧
        t = { s with mem := t.mem, stackSize := s.stackSize + 1, ip := s.ip + 2 } ∧
        t.stackSize.toInt = s.stackSize.toInt + 1 ∧ t.mem.readWord slot = s.reg r ∧
        (∀ a : Nat, ¬(4 * slot ≤ a ∧ a < 4 * slot + 4) → t.mem.readByte a = s.mem.readByte a) ∧
        (s.stackSize.toInt = 0 → (slot : Int) = s.params.stackBottom) ∧
        (s.stackSize.toInt = s.params.stackCapacity - 1 → (slot : Int) = s.params.stackLimit + 1)) ∧
    (∀ r : Reg, (s.params.stackCapacity : Int) ≤ s.stackSize.toInt →
      exec (.push r.selector) s = .next { s with status := .invalidStackOperation }) ∧
    (∀ r : Reg, s.Inv → s.params.stackCapacity = 0 →
      exec (.push r.selector) s = .next { s with status := .invalidStackOperation }) ∧
    (∀ w : Word, 3 < w.toNat → exec (.push w) s = .next { s with status := .illegalOperand })

/-- `pop` copies the top word, at `stackBottom − stackSize + 1`, into the register and uncounts it; Memory keeps every byte, the
vacated slot among them; an empty stack sets InvalidStackOperation and nothing else (spec/43_stack.md section 2; that the slot
is kept is the spec's decision D11, log 11). -/
def Obligations.PopReadsTheTopWord : Prop :=
  ∀ (s : State) (r : Reg),
    (s.Inv → 0 < s.stackSize.toInt →
      ∃ (slot : Nat) (n : Word), (slot : Int) = s.params.stackBottom - s.stackSize.toInt + 1 ∧
        n.toInt = s.stackSize.toInt - 1 ∧
        exec (.pop r.selector) s =
          .next { s.setReg r (s.mem.readWord slot) with stackSize := n, ip := s.ip + 2 }) ∧
    (s.stackSize.toInt = 0 → exec (.pop r.selector) s = .next { s with status := .invalidStackOperation })

/-- A `push` and then a `pop`, on a stack with room, move a register's value into a register and leave `stackSize` as it was;
the other registers keep their values (spec/43_stack.md section 2, its source property of the round trip). -/
def Obligations.PushThenPopIsARoundTrip : Prop :=
  ∀ (s : State) (r r' : Reg), s.Inv → s.stackSize.toInt < s.params.stackCapacity →
    ∃ t u : State, exec (.push r.selector) s = .next t ∧ exec (.pop r'.selector) t = .next u ∧
      u.reg r' = s.reg r ∧ (∀ q : Reg, q ≠ r' → u.reg q = s.reg q) ∧ u.stackSize = s.stackSize ∧
      u.ip = s.ip + 4 ∧ u.status = s.status ∧ u.result = s.result

/-! ## Input and output -/

/-- `in` asks for a signed integer and delivers the host's answer: a value to the register, or at end of input 0 to C and then −1
to the register, or IOError and no register changed; the answer is the first the state lists, or a free value where it lists
none (spec/44_io.md sections 1, 2; the interface and the order of the two writes are the spec's decisions D13, D14: logs 13,
14, 33; the listed answers, and that an answer always comes, are the model's own choices, logs 29, 16). -/
def Obligations.InDeliversTheHostsAnswer : Prop :=
  ∀ (s : State) (r : Reg) (ans : InputAnswer Word) (p : Ports),
    ((∃ rest, s.ports.intAnswers = ans :: rest ∧ p = { s.ports with intAnswers := rest }) ∨
      (s.ports.intAnswers = [] ∧ ans = Config.intAnswer s.ports.draws ∧
        p = { s.ports with draws := s.ports.draws + 1 })) →
    (∀ v : Word, ans = .value v →
      exec (.inp r.selector) s = .next { s.setReg r v with ports := p, ip := s.ip + 2 }) ∧
    (ans = .endOfInput →
      exec (.inp r.selector) s = .next { (s.setReg .C 0).setReg r (-1) with ports := p, ip := s.ip + 2 }) ∧
    (ans = .malformed → exec (.inp r.selector) s = .next { s with ports := p, status := .ioError })

/-- `get` asks for one character: its unsigned value 0 .. 255 goes to the register; end of input and a malformed read as for
`in` (spec/44_io.md sections 1, 2; D13, D14: logs 13, 14, 33; the listed answers, and that an answer always comes, are the
model's own choices, logs 29, 16). -/
def Obligations.GetDeliversOneCharacter : Prop :=
  ∀ (s : State) (r : Reg) (ans : InputAnswer Byte) (p : Ports),
    ((∃ rest, s.ports.charAnswers = ans :: rest ∧ p = { s.ports with charAnswers := rest }) ∨
      (s.ports.charAnswers = [] ∧ ans = Config.charAnswer s.ports.draws ∧
        p = { s.ports with draws := s.ports.draws + 1 })) →
    (∀ b : Byte, ans = .value b → ∃ v : Word, v.toInt = b.toNat ∧
      exec (.get r.selector) s = .next { s.setReg r v with ports := p, ip := s.ip + 2 }) ∧
    (ans = .endOfInput →
      exec (.get r.selector) s = .next { (s.setReg .C 0).setReg r (-1) with ports := p, ip := s.ip + 2 }) ∧
    (ans = .malformed → exec (.get r.selector) s = .next { s with ports := p, status := .ioError })

/-- `out` adds the event OutInt with the register's value at the end of the output and changes nothing else but `IP`
(spec/44_io.md sections 1, 2; that output cannot fail is the spec's decision D25, log 25). -/
def Obligations.OutEmitsTheInteger : Prop :=
  ∀ (s : State) (r : Reg),
    exec (.out r.selector) s =
      .next { s with ports := { s.ports with output := s.ports.output ++ [.outInt (s.reg r)] }, ip := s.ip + 2 }

/-- `put` adds the event OutByte when the register holds 0 .. 254 and changes nothing else but `IP`; any other value sets
IllegalOperand and emits nothing (spec/44_io.md sections 1, 2; the bound 254 is the spec's decision D20, log 20; that the
event is always emitted and the instruction completes rests on output that cannot fail, the spec's decision D25, log 25). -/
def Obligations.PutEmitsOneByteUpTo254 : Prop :=
  ∀ (s : State) (r : Reg),
    (0 ≤ (s.reg r).toInt → (s.reg r).toInt ≤ 254 →
      ∃ b : Byte, (b.toNat : Int) = (s.reg r).toInt ∧
        exec (.put r.selector) s =
          .next { s with ports := { s.ports with output := s.ports.output ++ [.outByte b] }, ip := s.ip + 2 }) ∧
    ((s.reg r).toInt < 0 ∨ 254 < (s.reg r).toInt →
      exec (.put r.selector) s = .next { s with status := .illegalOperand })

/-- The bytes of an OutInt event are the value's decimal digits, the first not 0 but for the value 0 itself, with a leading `-`
exactly for a negative value (spec/44_io.md section 1; the text format is the spec's decision D13, log 13). -/
def Obligations.OutIntRendersMinimalDecimal : Prop :=
  ∀ v : Word, ∃ digits : List Nat,
    (∀ d ∈ digits, d < 10) ∧ digits ≠ [] ∧ (digits.head? = some 0 → digits = [0]) ∧
    digits.foldl (fun n d => 10 * n + d) 0 = v.toInt.natAbs ∧
    (OutputEvent.outInt v).bytes =
      (if v.toInt < 0 then [45] else []) ++ digits.map fun d => BitVec.ofNat 8 (48 + d)

/-! ## Loop, compare and jumps -/

/-- R125: `loop` jumps to INDEX when C is not 0, negative values included, and else falls through; only `IP` changes, and it
never fails. -/
def Obligations.LoopJumpsWhileCIsNotZero : Prop :=
  ∀ (s : State) (index : Word),
    ((Instr.loop index).format = .FI ∧ (Instr.loop index).length = 2 ∧ ∀ cfg, (Instr.loop index).wellFormed cfg = true) ∧
    (s.c.toInt ≠ 0 → exec (.loop index) s = .next { s with ip := index }) ∧
    (s.c.toInt = 0 → exec (.loop index) s = .next { s with ip := s.ip + 2 })

/-- `cmp` writes the difference of the two registers to `result`, modulo 2^32: 0 exactly when they are equal, and the exact
difference when it fits in 32 bits; nothing else changes but `IP` (spec/45_branch.md section 3; the wrap is the spec's decision
D6, log 6). -/
def Obligations.CmpWritesTheDifference : Prop :=
  ∀ (s : State) (r1 r2 : Reg),
    ∃ v : Word, exec (.cmp r1.selector r2.selector) s = .next { s with result := v, ip := s.ip + 3 } ∧
      (v.toInt = 0 ↔ s.reg r1 = s.reg r2) ∧
      (4294967296 : Int) ∣ v.toInt - ((s.reg r1).toInt - (s.reg r2).toInt) ∧
      (-2147483648 ≤ (s.reg r1).toInt - (s.reg r2).toInt → (s.reg r1).toInt - (s.reg r2).toInt ≤ 2147483647 →
        v.toInt = (s.reg r1).toInt - (s.reg r2).toInt)

/-- R127: `jmp` sets `IP` to INDEX, any word, and changes nothing else; `BASE` does not have it. -/
def Obligations.JmpSetsIp : Prop :=
  ∀ (s : State) (index : Word),
    ((Instr.jmp index).format = .FI ∧ (Instr.jmp index).length = 2 ∧
      ∀ cfg, (Instr.jmp index).wellFormed cfg = true ↔ cfg = .jmp ∨ cfg = .jmpCall) ∧
    exec (.jmp index) s = .next { s with ip := index }

/-- R128, R129, R130: `jz`, `jnz`, `jgt` jump to INDEX when `result` is zero, not zero, above zero as a signed integer, and else
fall through; only `IP` changes; `BASE` does not have them. `result` keeps its value until the next `cmp` or reset, so a `jz`
right after reset is taken; after a `cmp` whose difference fits in 32 bits, `jgt` is taken exactly when the first register is
the greater. -/
def Obligations.ConditionalJumpsTestTheResult : Prop :=
  ∀ (s : State) (index : Word),
    (∀ i ∈ [Instr.jz index, Instr.jnz index, Instr.jgt index], i.format = .FI ∧ i.length = 2 ∧
      ∀ cfg, i.wellFormed cfg = true ↔ cfg = .jmp ∨ cfg = .jmpCall) ∧
    exec (.jz index) s = .next { s with ip := if s.result.toInt = 0 then index else s.ip + 2 } ∧
    exec (.jnz index) s = .next { s with ip := if s.result.toInt ≠ 0 then index else s.ip + 2 } ∧
    exec (.jgt index) s = .next { s with ip := if s.result.toInt > 0 then index else s.ip + 2 } ∧
    (∀ (i : Instr) (t : State), exec i s = .next t → (∀ w1 w2 : Word, i ≠ .cmp w1 w2) → t.result = s.result) ∧
    exec (.jz index) s.resetUnit = .next { s.resetUnit with ip := index } ∧
    (∀ (r1 r2 : Reg) (t : State), exec (.cmp r1.selector r2.selector) s = .next t →
      -2147483648 ≤ (s.reg r1).toInt - (s.reg r2).toInt → (s.reg r1).toInt - (s.reg r2).toInt ≤ 2147483647 →
        exec (.jgt index) t = .next { t with ip := if (s.reg r1).toInt > (s.reg r2).toInt then index else t.ip + 2 })

/-! ## Call and return -/

/-- R135: `call` writes `IP + 2` to the next free slot, `stackBottom − stackSize`, counts it and jumps to INDEX; a full stack
sets InvalidStackOperation and nothing else changes. The return address may be `stackLimit`: the matching `ret` then succeeds
and the step after it sets InvalidAddress. -/
def Obligations.CallPushesTheReturnAddress : Prop :=
  ∀ (s : State) (index : Word),
    ((Instr.call index).format = .FI ∧ (Instr.call index).length = 2) ∧
    (s.Inv → s.stackSize.toInt < s.params.stackCapacity →
      ∃ (slot : Nat) (t : State), (slot : Int) = s.params.stackBottom - s.stackSize.toInt ∧
        exec (.call index) s = .next t ∧
        t = { s with mem := t.mem, stackSize := s.stackSize + 1, ip := index } ∧
        t.stackSize.toInt = s.stackSize.toInt + 1 ∧ t.mem.readWord slot = s.ip + 2 ∧
        (∀ a : Nat, ¬(4 * slot ≤ a ∧ a < 4 * slot + 4) → t.mem.readByte a = s.mem.readByte a) ∧
        (0 ≤ s.ip.toInt → s.ip.toInt + 2 ≤ s.params.stackLimit → (t.mem.readWord slot).toInt = s.ip.toInt + 2) ∧
        (s.status = .ok → 0 ≤ s.ip.toInt → s.ip.toInt + 2 = s.params.stackLimit →
          ∃ u : State, exec .ret t = .next u ∧ u.status = .ok ∧ u.ip.toInt = s.params.stackLimit ∧
            step u = .next { u with status := .invalidAddress })) ∧
    ((s.params.stackCapacity : Int) ≤ s.stackSize.toInt →
      exec (.call index) s = .next { s with status := .invalidStackOperation })

/-- R136: `ret` jumps to the word on top of the stack, whatever it is, zeroes the slot it leaves and uncounts it; a word outside
`[0, stackLimit)` makes the next step set InvalidAddress. An empty stack sets InvalidStackOperation and nothing else changes. -/
def Obligations.RetJumpsToTheTopWordAndZeroesIt : Prop :=
  (Instr.ret.format = .F0 ∧ Instr.ret.length = 1) ∧
  ∀ s : State,
    (s.Inv → 0 < s.stackSize.toInt →
      ∃ (slot : Nat) (t : State), (slot : Int) = s.params.stackBottom - s.stackSize.toInt + 1 ∧
        exec .ret s = .next t ∧
        t = { s with mem := t.mem, stackSize := t.stackSize, ip := s.mem.readWord slot } ∧
        t.stackSize.toInt = s.stackSize.toInt - 1 ∧ t.mem.readWord slot = 0 ∧
        (∀ a : Nat, ¬(4 * slot ≤ a ∧ a < 4 * slot + 4) → t.mem.readByte a = s.mem.readByte a) ∧
        (s.status = .ok → ¬(0 ≤ t.ip.toInt ∧ t.ip.toInt < s.params.stackLimit) →
          step t = .next { t with status := .invalidAddress })) ∧
    (s.stackSize.toInt = 0 → exec .ret s = .next { s with status := .invalidStackOperation })

/-- A `call` on a stack with room and the `ret` of an empty routine come back to the instruction after the call with the stack
pointer, the registers and every word but the slot used as before, and that slot 0 (spec/46_call_return.md, R135 and R136
together). -/
def Obligations.CallThenRetReturns : Prop :=
  ∀ (s : State) (index : Word), s.Inv → s.stackSize.toInt < s.params.stackCapacity →
    ∃ (slot : Nat) (t u : State), (slot : Int) = s.params.stackBottom - s.stackSize.toInt ∧
      exec (.call index) s = .next t ∧ exec .ret t = .next u ∧
      u = { s with mem := u.mem, ip := s.ip + 2 } ∧ u.mem.readWord slot = 0 ∧
      ∀ k : Nat, k ≠ slot → u.mem.readWord k = s.mem.readWord k
end

