-- ==== Sys2Proof/Laws/Memory.lean ====
section
/-! SUPPORT. What every memory operation does: read after write, what is left alone, and that the canonical form is kept. -/

namespace Sys2Proof

/-! ## Bytes of a word -/

theorem wordOfBytes_byteOfWord (w : Word) :
    wordOfBytes (byteOfWord w 0) (byteOfWord w 1) (byteOfWord w 2) (byteOfWord w 3) = w := by
  unfold wordOfBytes byteOfWord
  ext i hi
  simp only [BitVec.getElem_append, BitVec.getElem_extractLsb']
  split_ifs <;> simp only [BitVec.getLsbD, BitVec.getElem_eq_testBit_toNat] <;>
    congr 1 <;> omega

@[simp] theorem wordOfBytes_zero : wordOfBytes 0 0 0 0 = 0 := by decide

theorem wordsOfBytes_bytesOfWord (w : Word) (rest : List Byte) :
    wordsOfBytes (bytesOfWord w ++ rest) = w :: wordsOfBytes rest := by
  simp [bytesOfWord, wordsOfBytes, wordOfBytes_byteOfWord]

/-- Words written out as bytes read back as the same words. -/
theorem wordsOfBytes_flatMap (ws : List Word) : wordsOfBytes (ws.flatMap bytesOfWord) = ws := by
  induction ws with
  | nil => rfl
  | cons w ws ih => rw [List.flatMap_cons, wordsOfBytes_bytesOfWord, ih]

end Sys2Proof

namespace Sys2Proof.Machine

/-! ## One byte -/

theorem Memory.readByte_of_lt (m : Memory) (k : Nat) (h : ∀ cell ∈ m, k < cell.1) : m.readByte k = unlisted := by
  induction m with
  | nil => rfl
  | cons cell rest ih =>
    obtain ⟨a, b⟩ := cell
    have ha : k < a := h (a, b) (by simp)
    rw [Memory.readByte, if_neg (by omega)]
    exact ih fun c hc => h c (by simp [hc])

theorem Memory.readByte_writeByte_ne (m : Memory) {k j : Nat} (v : Byte) (h : j ≠ k) :
    (m.writeByte k v).readByte j = m.readByte j := by
  induction m with
  | nil =>
    unfold Memory.writeByte
    split_ifs
    · rfl
    · simp [Memory.readByte, Ne.symm h]
  | cons cell rest ih =>
    obtain ⟨a, b⟩ := cell
    unfold Memory.writeByte
    split_ifs with h1 h2 h3 h4
    · rfl
    · simp [Memory.readByte, Ne.symm h]
    · subst h3; simp [Memory.readByte, Ne.symm h]
    · subst h3; simp [Memory.readByte, Ne.symm h]
    · simp [Memory.readByte, ih]

theorem Memory.readByte_writeByte_same (m : Memory) (k : Nat) (v : Byte) (h : m.wf) :
    (m.writeByte k v).readByte k = v := by
  induction m with
  | nil =>
    unfold Memory.writeByte
    split_ifs with hv
    · simp [Memory.readByte, hv]
    · simp [Memory.readByte]
  | cons cell rest ih =>
    obtain ⟨a, b⟩ := cell
    obtain ⟨hp, hne⟩ := h
    rw [List.pairwise_cons] at hp
    have hrest : Memory.wf rest := ⟨hp.2, fun c hc => hne c (by simp [hc])⟩
    unfold Memory.writeByte
    split_ifs with h1 h2 h3 h4
    · rw [h2, Memory.readByte_of_lt _ _ ?_]
      intro c hc
      rcases List.mem_cons.1 hc with rfl | hc
      · exact h1
      · exact Nat.lt_trans h1 (hp.1 c hc)
    · simp [Memory.readByte]
    · subst h3
      rw [h4, Memory.readByte_of_lt _ _ fun c hc => hp.1 c hc]
    · simp [Memory.readByte]
    · rw [Memory.readByte, if_neg (by omega)]
      exact ih hrest

theorem Memory.mem_writeByte {m : Memory} {k : Nat} {v : Byte} {cell : Host.Cell} (h : cell ∈ m.writeByte k v) :
    cell ∈ m ∨ (cell = (k, v) ∧ v ≠ Memory.unlisted) := by
  induction m with
  | nil =>
    unfold Memory.writeByte at h
    split_ifs at h with hv <;> simp_all
  | cons x rest ih =>
    obtain ⟨a, b⟩ := x
    unfold Memory.writeByte at h
    split_ifs at h with h1 h2 h3 h4
    · exact .inl h
    · rcases List.mem_cons.1 h with h | h
      · exact .inr ⟨h, h2⟩
      · exact .inl h
    · exact .inl (List.mem_cons_of_mem _ h)
    · rcases List.mem_cons.1 h with h | h
      · exact .inr ⟨h, h4⟩
      · exact .inl (List.mem_cons_of_mem _ h)
    · rcases List.mem_cons.1 h with h | h
      · exact .inl (h ▸ List.mem_cons_self)
      · rcases ih h with h | h
        · exact .inl (List.mem_cons_of_mem _ h)
        · exact .inr h

/-- A byte write keeps the canonical form. -/
theorem Memory.writeByte_wf (m : Memory) (k : Nat) (v : Byte) (h : m.wf) : (m.writeByte k v).wf := by
  refine ⟨?_, fun cell hc => ?_⟩
  · induction m with
    | nil =>
      unfold Memory.writeByte
      split_ifs <;> simp
    | cons x rest ih =>
      obtain ⟨a, b⟩ := x
      obtain ⟨hp, hne⟩ := h
      have hp' := hp
      rw [List.pairwise_cons] at hp
      have hrest : Memory.wf rest := ⟨hp.2, fun c hc => hne c (by simp [hc])⟩
      unfold Memory.writeByte
      split_ifs with h1 h2 h3 h4
      · exact hp'
      · rw [List.pairwise_cons]
        refine ⟨fun c hc => ?_, hp'⟩
        rcases List.mem_cons.1 hc with rfl | hc
        · exact h1
        · exact Nat.lt_trans h1 (hp.1 c hc)
      · exact hp.2
      · subst h3
        rw [List.pairwise_cons]
        exact ⟨hp.1, hp.2⟩
      · rw [List.pairwise_cons]
        refine ⟨fun c hc => ?_, ih hrest⟩
        rcases Memory.mem_writeByte hc with hc | ⟨rfl, -⟩
        · exact hp.1 c hc
        · show a < k
          omega
  · rcases Memory.mem_writeByte hc with hc | ⟨rfl, hv⟩
    · exact h.2 cell hc
    · exact hv

/-! ## One word -/

/-- A word write keeps the canonical form. -/
theorem Memory.writeWord_wf (m : Memory) (i : Nat) (w : Word) (h : m.wf) : (m.writeWord i w).wf :=
  Memory.writeByte_wf _ _ _ (Memory.writeByte_wf _ _ _ (Memory.writeByte_wf _ _ _ (Memory.writeByte_wf _ _ _ h)))

/-- Every byte outside the four bytes of the word reads as before. -/
theorem Memory.readByte_writeWord_outside (m : Memory) (i j : Nat) (w : Word) (h : j < 4 * i ∨ 4 * i + 4 ≤ j) :
    (m.writeWord i w).readByte j = m.readByte j := by
  unfold Memory.writeWord
  rw [readByte_writeByte_ne _ _ (by omega), readByte_writeByte_ne _ _ (by omega),
    readByte_writeByte_ne _ _ (by omega), readByte_writeByte_ne _ _ (by omega)]

/-- Read after write, same word. -/
theorem Memory.readWord_writeWord_same (m : Memory) (i : Nat) (w : Word) (h : m.wf) :
    (m.writeWord i w).readWord i = w := by
  have h0 := Memory.writeByte_wf m (4 * i) (byteOfWord w 0) h
  have h1 := Memory.writeByte_wf _ (4 * i + 1) (byteOfWord w 1) h0
  have h2 := Memory.writeByte_wf _ (4 * i + 2) (byteOfWord w 2) h1
  have e3 : (m.writeWord i w).readByte (4 * i + 3) = byteOfWord w 3 := readByte_writeByte_same _ _ _ h2
  have e2 : (m.writeWord i w).readByte (4 * i + 2) = byteOfWord w 2 := by
    unfold Memory.writeWord
    rw [readByte_writeByte_ne _ _ (by omega), readByte_writeByte_same _ _ _ h1]
  have e1 : (m.writeWord i w).readByte (4 * i + 1) = byteOfWord w 1 := by
    unfold Memory.writeWord
    rw [readByte_writeByte_ne _ _ (by omega), readByte_writeByte_ne _ _ (by omega), readByte_writeByte_same _ _ _ h0]
  have e0 : (m.writeWord i w).readByte (4 * i) = byteOfWord w 0 := by
    unfold Memory.writeWord
    rw [readByte_writeByte_ne _ _ (by omega), readByte_writeByte_ne _ _ (by omega),
      readByte_writeByte_ne _ _ (by omega), readByte_writeByte_same _ _ _ h]
  rw [Memory.readWord, e0, e1, e2, e3, wordOfBytes_byteOfWord]

/-- Read after write, another word. -/
theorem Memory.readWord_writeWord_ne (m : Memory) {i j : Nat} (w : Word) (h : j ≠ i) :
    (m.writeWord i w).readWord j = m.readWord j := by
  unfold Memory.readWord
  rw [readByte_writeWord_outside _ _ _ _ (by omega), readByte_writeWord_outside _ _ _ _ (by omega),
    readByte_writeWord_outside _ _ _ _ (by omega), readByte_writeWord_outside _ _ _ _ (by omega)]

/-- A word write lists nothing but bytes listed before and bytes of the word. -/
theorem Memory.mem_writeWord {m : Memory} {i : Nat} {w : Word} {cell : Host.Cell} (h : cell ∈ m.writeWord i w) :
    cell ∈ m ∨ (4 * i ≤ cell.1 ∧ cell.1 < 4 * i + 4) := by
  unfold Memory.writeWord at h
  rcases mem_writeByte h with h | ⟨rfl, -⟩
  · rcases mem_writeByte h with h | ⟨rfl, -⟩
    · rcases mem_writeByte h with h | ⟨rfl, -⟩
      · rcases mem_writeByte h with h | ⟨rfl, -⟩
        · exact .inl h
        · exact .inr ⟨by simp, by simp⟩
      · exact .inr ⟨by simp, by simp⟩
    · exact .inr ⟨by simp, by simp⟩
  · exact .inr ⟨by simp, by simp⟩

/-! ## Zeroing a range -/

/-- Zeroing a range keeps the canonical form. -/
theorem Memory.zeroWords_wf (m : Memory) (lo hi : Nat) (h : m.wf) : (m.zeroWords lo hi).wf :=
  ⟨h.1.filter _, fun cell hc => h.2 cell (List.mem_of_mem_filter hc)⟩

theorem Memory.readByte_zeroWords (m : Memory) (lo hi k : Nat) :
    (m.zeroWords lo hi).readByte k = if 4 * lo ≤ k ∧ k < 4 * hi then unlisted else m.readByte k := by
  induction m with
  | nil => simp [Memory.zeroWords, Memory.readByte]
  | cons cell rest ih =>
    obtain ⟨a, b⟩ := cell
    unfold Memory.zeroWords at ih ⊢
    rw [List.filter_cons]
    by_cases hin : 4 * lo ≤ a ∧ a < 4 * hi
    · rw [if_neg (by simp [hin]), ih]
      by_cases hk : a = k
      · subst hk; simp [hin]
      · simp [Memory.readByte, hk]
    · rw [if_pos (by simp; omega)]
      by_cases hk : a = k
      · subst hk; simp [Memory.readByte, hin]
      · simp only [Memory.readByte, if_neg hk]; exact ih

/-- A word in the zeroed range reads 0. -/
theorem Memory.readWord_zeroWords_inside (m : Memory) {lo hi i : Nat} (h1 : lo ≤ i) (h2 : i < hi) :
    (m.zeroWords lo hi).readWord i = 0 := by
  simp only [Memory.readWord, readByte_zeroWords]
  rw [if_pos (by omega), if_pos (by omega), if_pos (by omega), if_pos (by omega)]
  exact wordOfBytes_zero

/-- A word outside the zeroed range reads as before. -/
theorem Memory.readWord_zeroWords_outside (m : Memory) {lo hi i : Nat} (h : i < lo ∨ hi ≤ i) :
    (m.zeroWords lo hi).readWord i = m.readWord i := by
  simp only [Memory.readWord, readByte_zeroWords]
  rw [if_neg (by omega), if_neg (by omega), if_neg (by omega), if_neg (by omega)]

theorem Memory.mem_zeroWords {m : Memory} {lo hi : Nat} {cell : Host.Cell} (h : cell ∈ m.zeroWords lo hi) : cell ∈ m :=
  List.mem_of_mem_filter h

/-! ## Placing an image -/

/-- Placing words keeps the canonical form. -/
theorem Memory.placeWords_wf (m : Memory) (i : Nat) (ws : List Word) (h : m.wf) : (m.placeWords i ws).wf := by
  induction ws generalizing m i with
  | nil => exact h
  | cons w ws ih => exact ih _ _ (writeWord_wf m i w h)

theorem Memory.readWord_placeWords_outside (m : Memory) (i j : Nat) (ws : List Word) (h : j < i ∨ i + ws.length ≤ j) :
    (m.placeWords i ws).readWord j = m.readWord j := by
  induction ws generalizing m i with
  | nil => rfl
  | cons w ws ih =>
    rw [List.length_cons] at h
    rw [Memory.placeWords, ih _ _ (by omega), readWord_writeWord_ne _ _ (by omega)]

/-- Word `k` of a placed image. -/
theorem Memory.readWord_placeWords (m : Memory) (i k : Nat) (ws : List Word) (h : m.wf) (hk : k < ws.length) :
    (m.placeWords i ws).readWord (i + k) = ws[k] := by
  induction ws generalizing m i k with
  | nil => simp at hk
  | cons w ws ih =>
    cases k with
    | zero =>
      rw [Memory.placeWords, Nat.add_zero, readWord_placeWords_outside _ _ _ _ (by omega)]
      exact readWord_writeWord_same m i w h
    | succ k =>
      have := ih (m.writeWord i w) (i + 1) k (writeWord_wf m i w h) (by simpa using hk)
      rw [Memory.placeWords]
      rw [show i + (k + 1) = i + 1 + k by omega]
      simpa using this

theorem Memory.mem_placeWords {m : Memory} {i : Nat} {ws : List Word} {cell : Host.Cell} (h : cell ∈ m.placeWords i ws) :
    cell ∈ m ∨ (4 * i ≤ cell.1 ∧ cell.1 < 4 * (i + ws.length)) := by
  induction ws generalizing m i with
  | nil => exact .inl h
  | cons w ws ih =>
    rw [List.length_cons]
    rcases ih h with h | h
    · rcases mem_writeWord h with h | h
      · exact .inl h
      · exact .inr ⟨h.1, by omega⟩
    · exact .inr ⟨by omega, by omega⟩

@[simp] theorem Memory.readByte_empty (k : Nat) : Memory.readByte [] k = unlisted := rfl
@[simp] theorem Memory.readWord_empty (i : Nat) : Memory.readWord [] i = 0 := wordOfBytes_zero
theorem Memory.wf_empty : Memory.wf [] := ⟨List.Pairwise.nil, by simp⟩

end Sys2Proof.Machine
end

