-- ==== Sys2Proof/Laws/State.lean ====
section
/-! SUPPORT. One lemma per field per update of the state, true by unfolding, so that no later proof unfolds an update. -/

namespace Sys2Proof.Machine

variable (s : State) (r r' : Reg) (v : Word)

/-! ## `setReg` -/

@[simp] theorem State.reg_setReg_same : (s.setReg r v).reg r = v := by cases r <;> rfl
theorem State.reg_setReg_ne (h : r' ≠ r) : (s.setReg r v).reg r' = s.reg r' := by
  cases r <;> cases r' <;> first | rfl | exact absurd rfl h
theorem State.reg_setReg : (s.setReg r v).reg r' = if r' = r then v else s.reg r' := by
  cases r <;> cases r' <;> rfl
@[simp] theorem State.setReg_ip : (s.setReg r v).ip = s.ip := by cases r <;> rfl
@[simp] theorem State.setReg_status : (s.setReg r v).status = s.status := by cases r <;> rfl
@[simp] theorem State.setReg_stackSize : (s.setReg r v).stackSize = s.stackSize := by cases r <;> rfl
@[simp] theorem State.setReg_result : (s.setReg r v).result = s.result := by cases r <;> rfl
@[simp] theorem State.setReg_mem : (s.setReg r v).mem = s.mem := by cases r <;> rfl
@[simp] theorem State.setReg_params : (s.setReg r v).params = s.params := by cases r <;> rfl
@[simp] theorem State.setReg_ports : (s.setReg r v).ports = s.ports := by cases r <;> rfl
@[simp] theorem State.setReg_A_a : (s.setReg .A v).a = v := rfl
@[simp] theorem State.setReg_B_b : (s.setReg .B v).b = v := rfl
@[simp] theorem State.setReg_C_c : (s.setReg .C v).c = v := rfl
@[simp] theorem State.setReg_D_d : (s.setReg .D v).d = v := rfl
@[simp] theorem State.reg_A : s.reg .A = s.a := rfl
@[simp] theorem State.reg_B : s.reg .B = s.b := rfl
@[simp] theorem State.reg_C : s.reg .C = s.c := rfl
@[simp] theorem State.reg_D : s.reg .D = s.d := rfl
/-- Writing back what a register holds changes nothing. -/
@[simp] theorem State.setReg_reg : s.setReg r (s.reg r) = s := by cases r <;> rfl
/-- The register file is the four named fields. -/
theorem State.ext_reg {s t : State} (h : ∀ r, s.reg r = t.reg r) :
    s.a = t.a ∧ s.b = t.b ∧ s.c = t.c ∧ s.d = t.d := ⟨h .A, h .B, h .C, h .D⟩

/-! ## `fail` -/

variable (st : Status)

@[simp] theorem State.fail_status : (s.fail st).status = st := rfl
@[simp] theorem State.fail_reg : (s.fail st).reg r = s.reg r := by cases r <;> rfl
@[simp] theorem State.fail_ip : (s.fail st).ip = s.ip := rfl
@[simp] theorem State.fail_stackSize : (s.fail st).stackSize = s.stackSize := rfl
@[simp] theorem State.fail_result : (s.fail st).result = s.result := rfl
@[simp] theorem State.fail_mem : (s.fail st).mem = s.mem := rfl
@[simp] theorem State.fail_params : (s.fail st).params = s.params := rfl
@[simp] theorem State.fail_ports : (s.fail st).ports = s.ports := rfl

/-! ## `emit` -/

variable (e : OutputEvent)

@[simp] theorem State.emit_output : (s.emit e).ports.output = s.ports.output ++ [e] := rfl
@[simp] theorem State.emit_intAnswers : (s.emit e).ports.intAnswers = s.ports.intAnswers := rfl
@[simp] theorem State.emit_charAnswers : (s.emit e).ports.charAnswers = s.ports.charAnswers := rfl
@[simp] theorem State.emit_draws : (s.emit e).ports.draws = s.ports.draws := rfl
@[simp] theorem State.emit_reg : (s.emit e).reg r = s.reg r := by cases r <;> rfl
@[simp] theorem State.emit_ip : (s.emit e).ip = s.ip := rfl
@[simp] theorem State.emit_status : (s.emit e).status = s.status := rfl
@[simp] theorem State.emit_stackSize : (s.emit e).stackSize = s.stackSize := rfl
@[simp] theorem State.emit_result : (s.emit e).result = s.result := rfl
@[simp] theorem State.emit_mem : (s.emit e).mem = s.mem := rfl
@[simp] theorem State.emit_params : (s.emit e).params = s.params := rfl

/-! ## `resetUnit` -/

@[simp] theorem State.resetUnit_reg : s.resetUnit.reg r = 0 := by cases r <;> rfl
@[simp] theorem State.resetUnit_ip : s.resetUnit.ip = 0 := rfl
@[simp] theorem State.resetUnit_status : s.resetUnit.status = .ok := rfl
@[simp] theorem State.resetUnit_stackSize : s.resetUnit.stackSize = 0 := rfl
@[simp] theorem State.resetUnit_result : s.resetUnit.result = 0 := rfl
@[simp] theorem State.resetUnit_params : s.resetUnit.params = s.params := rfl
@[simp] theorem State.resetUnit_ports : s.resetUnit.ports = s.ports := rfl
@[simp] theorem State.resetUnit_mem : s.resetUnit.mem =
    s.mem.zeroWords s.params.stackLimit.toNat (s.params.stackBottom + 1).toNat := rfl

/-! ## `Handled.commit` -/

variable (len : Nat) (target : Word)

@[simp] theorem Handled.commit_fail : (Handled.mk .fail s).commit len = s := rfl
@[simp] theorem Handled.commit_next :
    (Handled.mk .next s).commit len = { s with ip := s.ip + BitVec.ofNat 32 len } := rfl
@[simp] theorem Handled.commit_jumped : (Handled.mk .jumped s).commit len = s := rfl

/-! ## Selectors -/

@[simp] theorem selected_selector : selected r.selector = some r := by cases r <;> rfl

theorem selected_eq_some {w : Word} : selected w = some r ↔ w = r.selector := by
  constructor
  · intro h
    unfold selected at h
    split_ifs at h <;> simp_all [Reg.selector] <;> subst h <;> simp
  · rintro rfl
    simp

/-- A word names no register exactly when, read as unsigned, it is above 3 (negative selectors among them). -/
theorem selected_eq_none {w : Word} : selected w = none ↔ 3 < w.toNat := by
  have e0 : w = 0 ↔ w.toNat = 0 := by rw [← BitVec.toNat_inj]; rfl
  have e1 : w = 1 ↔ w.toNat = 1 := by rw [← BitVec.toNat_inj]; rfl
  have e2 : w = 2 ↔ w.toNat = 2 := by rw [← BitVec.toNat_inj]; rfl
  have e3 : w = 3 ↔ w.toNat = 3 := by rw [← BitVec.toNat_inj]; rfl
  unfold selected
  simp only [e0, e1, e2, e3]
  split_ifs <;> simp <;> omega

end Sys2Proof.Machine
end

