-- ==== Sys2Proof/Laws/Ops.lean ====
section
/-! SUPPORT. For each shared operation, one lemma that says everything it can do, and its rewriting form where the case is
known. Provers cite these instead of unfolding the operations. -/

namespace Sys2Proof

/-! ## Parameters -/

theorem Params.stackLimit_nonneg {p : Params} (h : p.wellFormed) : 0 ≤ p.stackLimit := by
  unfold Params.stackLimit Params.stackBottom
  obtain ⟨_, _, _⟩ := h
  omega

theorem Params.stackLimit_le_stackBottom (p : Params) : p.stackLimit ≤ p.stackBottom := by
  unfold Params.stackLimit; omega

theorem Params.stackBottom_lt (p : Params) : p.stackBottom < p.memWords := by
  unfold Params.stackBottom; omega

theorem Params.stackLimit_eq (p : Params) : p.stackLimit = (p.memWords : Int) - 1 - p.stackCapacity := rfl

theorem Params.stackBottom_eq (p : Params) : p.stackBottom = (p.memWords : Int) - 1 := rfl

/-! ## The instruction table -/

theorem lookup_eq_some {cfg : IsaConfig} {op : Word} {row : Row} :
    lookup cfg op = some row ↔
      (0 ≤ op.toInt ∧ op.toInt < cfg.instructionCount) ∧ opcodeRow op.toNat = some row := by
  unfold lookup
  split_ifs with h <;> simp [h]

/-- Every opcode below 26, and no other, has a row. -/
theorem opcodeRow_isSome (n : Nat) : (opcodeRow n).isSome ↔ n < 26 := by
  constructor
  · intro h
    by_contra hn
    unfold opcodeRow at h
    split at h <;> simp_all
  · intro h
    interval_cases n <;> rfl

theorem IsaConfig.instructionCount_le (cfg : IsaConfig) : cfg.instructionCount ≤ 26 := by cases cfg <;> decide

theorem lookup_eq_none {cfg : IsaConfig} {op : Word} :
    lookup cfg op = none ↔ ¬(0 ≤ op.toInt ∧ op.toInt < cfg.instructionCount) := by
  unfold lookup
  split_ifs with h
  · simp only [h, and_self, not_true_eq_false, iff_false]
    have hc := cfg.instructionCount_le
    have h32 : op.toNat < 26 := by
      have := BitVec.toInt_eq_toNat_cond op
      have := op.isLt
      split_ifs at * <;> omega
    intro hn
    have := (opcodeRow_isSome op.toNat).2 h32
    rw [hn] at this
    exact absurd this (by simp)
  · simp [h]

end Sys2Proof

namespace Sys2Proof.Machine

variable {s t : State} {h hd : Handled} {H : Handler} {len : Nat} {w v : Word} {index : Int}

/-! ## The handler protocol -/

theorem dispatch_eq_next : dispatch len H = .next t ↔ ∃ hd, H = .next hd ∧ hd.commit len = t := by
  cases H <;> simp [dispatch]

theorem dispatch_eq_fault {f : Fault} : dispatch len H = .fault f ↔ H = .fault f := by
  cases H <;> simp [dispatch]

theorem dispatch_eq_refused {r : Refusal} : dispatch len H = .refused r ↔ H = .refused r := by
  cases H <;> simp [dispatch]

@[simp] theorem dispatch_raise (st : Status) (s : State) : dispatch len (raise st s) = .next (s.fail st) := rfl
@[simp] theorem dispatch_proceed (s : State) :
    dispatch len (proceed s) = .next { s with ip := s.ip + BitVec.ofNat 32 len } := rfl
@[simp] theorem dispatch_jumpTo (target : Word) (s : State) :
    dispatch len (jumpTo target s) = .next { s with ip := target } := rfl
@[simp] theorem dispatch_next (hd : Handled) : dispatch len (.next hd) = .next (hd.commit len) := rfl

/-! ## Operands -/

@[simp] theorem withReg_selector (r : Reg) (s : State) (rest : Reg → Handler) :
    withReg r.selector s rest = rest r := by simp [withReg]

theorem withReg_bad {rest : Reg → Handler} (hw : 3 < w.toNat) : withReg w s rest = raise .illegalOperand s := by
  simp [withReg, selected_eq_none.2 hw]

/-- A selector check either finds the register or raises IllegalOperand. -/
theorem withReg_cases (w : Word) (s : State) (rest : Reg → Handler) :
    (∃ r, w = r.selector ∧ withReg w s rest = rest r) ∨ (3 < w.toNat ∧ withReg w s rest = raise .illegalOperand s) := by
  cases hs : selected w with
  | some r => exact .inl ⟨r, selected_eq_some r |>.1 hs, by simp [withReg, hs]⟩
  | none => exact .inr ⟨selected_eq_none.1 hs, by simp [withReg, hs]⟩

theorem withFrameSlot_valid {rest : Int → Handler} (h : s.slotValid (s.frameSlot w)) :
    withFrameSlot w s rest = rest (s.frameSlot w) := if_pos h

theorem withFrameSlot_invalid {rest : Int → Handler} (h : ¬s.slotValid (s.frameSlot w)) :
    withFrameSlot w s rest = raise .invalidStackOperation s := if_neg h

/-! ## The memory port -/

theorem readThen_inside {rest : Word → Handler} (h : 0 ≤ index ∧ index < s.params.memWords) :
    readThen index s rest = rest (s.mem.readWord index.toNat) := if_pos h

theorem readThen_eq_next {rest : Word → Handler} :
    readThen index s rest = .next hd ↔
      (0 ≤ index ∧ index < s.params.memWords) ∧ rest (s.mem.readWord index.toNat) = .next hd := by
  unfold readThen
  split_ifs with h <;> simp [h]

theorem writeThen_inside {rest : State → Handler} (h : 0 ≤ index ∧ index < s.params.memWords) :
    writeThen index v s rest = rest { s with mem := s.mem.writeWord index.toNat v } := if_pos h

theorem writeThen_eq_next {rest : State → Handler} :
    writeThen index v s rest = .next hd ↔
      (0 ≤ index ∧ index < s.params.memWords) ∧
        rest { s with mem := s.mem.writeWord index.toNat v } = .next hd := by
  unfold writeThen
  split_ifs with h <;> simp [h]

/-! ## The stack -/

theorem pushThen_full {rest : State → Handler} (h : (s.params.stackCapacity : Int) ≤ s.stackSize.toInt) :
    pushThen v s rest = raise .invalidStackOperation s := if_pos h

theorem pushThen_room {rest : State → Handler} (h : s.stackSize.toInt < s.params.stackCapacity)
    (hin : 0 ≤ s.freeSlot ∧ s.freeSlot < s.params.memWords) :
    pushThen v s rest =
      rest { s with mem := s.mem.writeWord s.freeSlot.toNat v, stackSize := s.stackSize + 1 } := by
  rw [pushThen, if_neg (by omega), writeThen_inside hin]

/-- A push fails when the stack is full, or writes the free slot, counts it and goes on. -/
theorem pushThen_eq_next {rest : State → Handler} :
    pushThen v s rest = .next hd ↔
      ((s.params.stackCapacity : Int) ≤ s.stackSize.toInt ∧ hd = ⟨.fail, s.fail .invalidStackOperation⟩) ∨
      (s.stackSize.toInt < s.params.stackCapacity ∧ (0 ≤ s.freeSlot ∧ s.freeSlot < s.params.memWords) ∧
        rest { s with mem := s.mem.writeWord s.freeSlot.toNat v, stackSize := s.stackSize + 1 } = .next hd) := by
  unfold pushThen
  split_ifs with h
  · have : ¬s.stackSize.toInt < s.params.stackCapacity := by omega
    simp [h, this, raise, eq_comm]
  · have : s.stackSize.toInt < s.params.stackCapacity := by omega
    simp [h, this, writeThen_eq_next]

/-- With room on the stack of a sound state the free slot lies in the stack region, inside Memory. -/
theorem State.freeSlot_bounds (hi : s.Inv) (h : s.stackSize.toInt < s.params.stackCapacity) :
    s.params.stackLimit < s.freeSlot ∧ s.freeSlot ≤ s.params.stackBottom ∧ 0 ≤ s.freeSlot ∧
      s.freeSlot < s.params.memWords := by
  have h1 := hi.stackNonneg
  obtain ⟨_, _, _⟩ := hi.geometry
  unfold State.freeSlot Params.stackLimit Params.stackBottom
  omega

theorem State.stackSize_pos (hi : s.Inv) (h : s.stackSize ≠ 0) : 0 < s.stackSize.toInt := by
  have h1 := hi.stackNonneg
  have h2 : s.stackSize.toInt ≠ 0 := fun e => h (BitVec.eq_of_toInt_eq (by simpa using e))
  omega

/-- With a word on the stack of a sound state the top slot lies in the stack region, inside Memory. -/
theorem State.topSlot_bounds (hi : s.Inv) (h : s.stackSize ≠ 0) :
    s.params.stackLimit < s.topSlot ∧ s.topSlot ≤ s.params.stackBottom ∧ 0 ≤ s.topSlot ∧
      s.topSlot < s.params.memWords := by
  have h1 := State.stackSize_pos hi h
  have h2 := hi.stackBounded
  obtain ⟨_, _, _⟩ := hi.geometry
  unfold State.topSlot State.freeSlot Params.stackLimit Params.stackBottom
  omega

/-- A valid slot of a unit with legal parameters lies inside Memory. -/
theorem State.slotValid_inside (hg : s.params.wellFormed) (h : s.slotValid index) :
    0 ≤ index ∧ index < s.params.memWords := by
  obtain ⟨h1, h2⟩ := h
  have := Params.stackLimit_nonneg hg
  have := s.params.stackBottom_lt
  omega

/-! ## Branches and division -/

@[simp] theorem branchIf_true (target : Word) (s : State) : branchIf true target s = jumpTo target s := rfl
@[simp] theorem branchIf_false (target : Word) (s : State) : branchIf false target s = proceed s := rfl

theorem proceed_eq_next : proceed t = .next hd ↔ hd = ⟨.next, t⟩ := by
  simp [proceed, eq_comm]

theorem divideA_zero (h : v.toInt = 0) : divideA v s = raise .divByZero s := if_pos h

theorem divideA_refuse (h1 : s.a.toInt = -2147483648 ∧ v.toInt = -1) (hp : s.params.divOverflow = .refuse) :
    divideA v s = .refused .divOverflow := by
  have h0 : ¬v.toInt = 0 := by omega
  rw [divideA, if_neg h0, if_pos h1, hp]

theorem divideA_wrap (h1 : s.a.toInt = -2147483648 ∧ v.toInt = -1) (hp : s.params.divOverflow = .wrap) :
    divideA v s = proceed { s with a := 0x80000000#32 } := by
  have h0 : ¬v.toInt = 0 := by omega
  rw [divideA, if_neg h0, if_pos h1, hp]

theorem divideA_quotient (h0 : v.toInt ≠ 0) (h1 : ¬(s.a.toInt = -2147483648 ∧ v.toInt = -1)) :
    divideA v s = proceed { s with a := wrap32 (tdiv s.a.toInt v.toInt) } := by
  rw [divideA, if_neg h0, if_neg h1]

theorem divideA_eq_next :
    divideA v s = .next hd ↔
      (v.toInt = 0 ∧ hd = ⟨.fail, s.fail .divByZero⟩) ∨
      (v.toInt ≠ 0 ∧ (s.a.toInt = -2147483648 ∧ v.toInt = -1) ∧ s.params.divOverflow = .wrap ∧
        hd = ⟨.next, { s with a := 0x80000000#32 }⟩) ∨
      (v.toInt ≠ 0 ∧ ¬(s.a.toInt = -2147483648 ∧ v.toInt = -1) ∧
        hd = ⟨.next, { s with a := wrap32 (tdiv s.a.toInt v.toInt) }⟩) := by
  unfold divideA
  split_ifs with h1 h2
  · simp [h1, raise, eq_comm]
  · cases hd' : s.params.divOverflow <;> simp [h2, proceed_eq_next]
  · rw [proceed_eq_next]
    simp only [h1, h2, ne_eq, not_false_eq_true, true_and, false_and, false_or]

theorem divideA_eq_refused {r : Refusal} :
    divideA v s = .refused r ↔
      (s.a.toInt = -2147483648 ∧ v.toInt = -1) ∧ s.params.divOverflow = .refuse ∧ r = .divOverflow := by
  unfold divideA
  split_ifs with h1 h2
  · simp [raise, h1]
  · cases hd' : s.params.divOverflow <;> simp [h2, proceed, eq_comm]
  · simp [h2, proceed]

theorem divideA_ne_fault {f : Fault} : divideA v s ≠ .fault f := by
  unfold divideA
  split_ifs
  · simp [raise]
  · cases s.params.divOverflow <;> simp [proceed]
  · simp [proceed]

/-! ## The ports -/

@[simp] theorem receive_value (r : Reg) (v : Word) (s : State) :
    receive r (.value v) s = ⟨.next, s.setReg r v⟩ := rfl
@[simp] theorem receive_endOfInput (r : Reg) (s : State) :
    receive r .endOfInput s = ⟨.next, (s.setReg .C 0).setReg r (-1)⟩ := rfl
@[simp] theorem receive_malformed (r : Reg) (s : State) :
    receive r .malformed s = ⟨.fail, s.fail .ioError⟩ := rfl

/-- A request at the input port leaves the output alone. -/
@[simp] theorem Ports.inInt_output (p : Ports) : p.inInt.2.output = p.output := by
  unfold Ports.inInt; split <;> rfl
@[simp] theorem Ports.inChar_output (p : Ports) : p.inChar.2.output = p.output := by
  unfold Ports.inChar; split <;> rfl

/-! ## Fetch and step -/

/-- A fetch succeeds exactly when `IP` is in range, the opcode has a row and the whole instruction fits. -/
theorem fetch_eq_ok {i : Instr} :
    fetch s = .ok i ↔
      s.ipInRange ∧ ∃ row, lookup s.params.isaConfig (s.codeWord 0) = some row ∧
        s.ip.toInt + row.length ≤ s.params.stackLimit ∧ row.fill s.codeWord = i := by
  unfold fetch
  split_ifs with h
  · cases hl : lookup s.params.isaConfig (s.codeWord 0) with
    | none => simp
    | some row =>
      by_cases h2 : s.ip.toInt + row.length ≤ s.params.stackLimit
      · simp only [if_pos h2, Except.ok.injEq, Option.some.injEq, exists_eq_left']
        exact ⟨fun e => ⟨h, h2, e⟩, fun e => e.2.2⟩
      · simp [h2]
  · simp [h]

/-- A fetch that fails sets one of two statuses. -/
theorem fetch_error_cases {st : Status} (h : fetch s = .error st) : st = .invalidAddress ∨ st = .illegalInstruction := by
  unfold fetch at h
  split_ifs at h
  · split at h
    · simp_all
    · split_ifs at h; simp_all
  · simp_all

theorem step_stopped (h : s.status ≠ .ok) : step s = .next s := if_neg h

theorem step_of_fetch {i : Instr} (hs : s.status = .ok) (hf : fetch s = .ok i) : step s = exec i s := by
  simp [step, hs, hf]

theorem step_of_fetch_error {st : Status} (hs : s.status = .ok) (hf : fetch s = .error st) :
    step s = .next (s.fail st) := by
  simp [step, hs, hf]

/-- What a step can do: nothing on a stopped machine, the instruction fetched, or the exception of a failed fetch. -/
theorem step_cases (s : State) :
    (s.status ≠ .ok ∧ step s = .next s) ∨ (s.status = .ok ∧ ∃ i, fetch s = .ok i ∧ step s = exec i s) ∨
      (s.status = .ok ∧ ∃ st, fetch s = .error st ∧ step s = .next (s.fail st)) := by
  by_cases hs : s.status = .ok
  · cases hf : fetch s with
    | ok i => exact .inr (.inl ⟨hs, i, rfl, step_of_fetch hs hf⟩)
    | error st => exact .inr (.inr ⟨hs, st, rfl, step_of_fetch_error hs hf⟩)
  · exact .inl ⟨hs, step_stopped hs⟩

end Sys2Proof.Machine
end

