-- ==== Sys2Proof/Laws/Exec.lean ====
section
/-! SUPPORT. What each of the 26 instructions can do, said once: if `exec` answers `next t`, then a selector was bad and the
state took IllegalOperand, or `t` is one of the states `Effect` lists. Frames and invariants follow by cases on it. -/

namespace Sys2Proof.Machine

variable {s t : State}

/-- The next states of an instruction whose selectors are good. -/
def Effect (s t : State) : Instr → Prop
  | .nop => t = { s with ip := s.ip + 1 }
  | .halt => t = { s with ip := s.ip + s.params.haltAdvance, status := .halted }
  | .add w => ∃ r, w = Reg.selector r ∧ t = { s with a := wrap32 (s.a.toInt + (s.reg r).toInt), ip := s.ip + 2 }
  | .sub w => ∃ r, w = Reg.selector r ∧ t = { s with a := wrap32 (s.a.toInt - (s.reg r).toInt), ip := s.ip + 2 }
  | .mul w => ∃ r, w = Reg.selector r ∧ t = { s with a := wrap32 (s.a.toInt * (s.reg r).toInt), ip := s.ip + 2 }
  | .div w => ∃ r, w = Reg.selector r ∧
      (((s.reg r).toInt = 0 ∧ t = s.fail .divByZero) ∨
      ((s.reg r).toInt ≠ 0 ∧ (s.a.toInt = -2147483648 ∧ (s.reg r).toInt = -1) ∧ s.params.divOverflow = .wrap ∧
        t = { s with a := 0x80000000#32, ip := s.ip + 2 }) ∨
      ((s.reg r).toInt ≠ 0 ∧ ¬(s.a.toInt = -2147483648 ∧ (s.reg r).toInt = -1) ∧
        t = { s with a := wrap32 (tdiv s.a.toInt (s.reg r).toInt), ip := s.ip + 2 }))
  | .inc w => ∃ r, w = Reg.selector r ∧ t = { s.setReg r (wrap32 ((s.reg r).toInt + 1)) with ip := s.ip + 2 }
  | .dec w => ∃ r, w = Reg.selector r ∧ t = { s.setReg r (wrap32 ((s.reg r).toInt - 1)) with ip := s.ip + 2 }
  | .loop x => t = { s with ip := if s.c.toInt ≠ 0 then x else s.ip + 2 }
  | .movr w v => ∃ r, w = Reg.selector r ∧ t = { s.setReg r v with ip := s.ip + 3 }
  | .load w o => ∃ r, w = Reg.selector r ∧
      ((¬s.slotValid (s.frameSlot o) ∧ t = s.fail .invalidStackOperation) ∨
      (s.slotValid (s.frameSlot o) ∧ (0 ≤ s.frameSlot o ∧ s.frameSlot o < s.params.memWords) ∧
        t = { s.setReg r (s.mem.readWord (s.frameSlot o).toNat) with ip := s.ip + 3 }))
  | .store w o => ∃ r, w = Reg.selector r ∧
      ((¬s.slotValid (s.frameSlot o) ∧ t = s.fail .invalidStackOperation) ∨
      (s.slotValid (s.frameSlot o) ∧ (0 ≤ s.frameSlot o ∧ s.frameSlot o < s.params.memWords) ∧
        t = { s with mem := s.mem.writeWord (s.frameSlot o).toNat (s.reg r), ip := s.ip + 3 }))
  | .inp w => ∃ r, w = Reg.selector r ∧
      t = (receive r s.ports.inInt.1 { s with ports := s.ports.inInt.2 }).commit 2
  | .get w => ∃ r, w = Reg.selector r ∧
      t = (receive r (charAsWord s.ports.inChar.1) { s with ports := s.ports.inChar.2 }).commit 2
  | .out w => ∃ r, w = Reg.selector r ∧ t = { s.emit (.outInt (s.reg r)) with ip := s.ip + 2 }
  | .put w => ∃ r, w = Reg.selector r ∧
      ((((s.reg r).toInt < 0 ∨ 254 < (s.reg r).toInt) ∧ t = s.fail .illegalOperand) ∨
      (¬((s.reg r).toInt < 0 ∨ 254 < (s.reg r).toInt) ∧
        t = { s.emit (.outByte ((s.reg r).setWidth 8)) with ip := s.ip + 2 }))
  | .swap w1 w2 => ∃ r1 r2, w1 = Reg.selector r1 ∧ w2 = Reg.selector r2 ∧
      t = { (s.setReg r1 (s.reg r2)).setReg r2 (s.reg r1) with ip := s.ip + 3 }
  | .push w => ∃ r, w = Reg.selector r ∧
      (((s.params.stackCapacity : Int) ≤ s.stackSize.toInt ∧ t = s.fail .invalidStackOperation) ∨
      (s.stackSize.toInt < s.params.stackCapacity ∧ (0 ≤ s.freeSlot ∧ s.freeSlot < s.params.memWords) ∧
        t = { s with mem := s.mem.writeWord s.freeSlot.toNat (s.reg r), stackSize := s.stackSize + 1, ip := s.ip + 2 }))
  | .pop w => ∃ r, w = Reg.selector r ∧
      ((s.stackSize = 0 ∧ t = s.fail .invalidStackOperation) ∨
      (s.stackSize ≠ 0 ∧ (0 ≤ s.topSlot ∧ s.topSlot < s.params.memWords) ∧
        t = { s.setReg r (s.mem.readWord s.topSlot.toNat) with stackSize := s.stackSize - 1, ip := s.ip + 2 }))
  | .cmp w1 w2 => ∃ r1 r2, w1 = Reg.selector r1 ∧ w2 = Reg.selector r2 ∧
      t = { s with result := compareResult (s.reg r1) (s.reg r2), ip := s.ip + 3 }
  | .jmp x => t = { s with ip := x }
  | .jz x => t = { s with ip := if s.result.toInt = 0 then x else s.ip + 2 }
  | .jnz x => t = { s with ip := if s.result.toInt ≠ 0 then x else s.ip + 2 }
  | .jgt x => t = { s with ip := if 0 < s.result.toInt then x else s.ip + 2 }
  | .call x =>
      ((s.params.stackCapacity : Int) ≤ s.stackSize.toInt ∧ t = s.fail .invalidStackOperation) ∨
      (s.stackSize.toInt < s.params.stackCapacity ∧ (0 ≤ s.freeSlot ∧ s.freeSlot < s.params.memWords) ∧
        t = { s with mem := s.mem.writeWord s.freeSlot.toNat (s.ip + 2), stackSize := s.stackSize + 1, ip := x })
  | .ret =>
      (s.stackSize = 0 ∧ t = s.fail .invalidStackOperation) ∨
      (s.stackSize ≠ 0 ∧ (0 ≤ s.topSlot ∧ s.topSlot < s.params.memWords) ∧
        t = { s with
          mem := s.mem.writeWord s.topSlot.toNat 0
          stackSize := s.stackSize - 1
          ip := s.mem.readWord s.topSlot.toNat })

/-- A handler behind a selector check: the check fails, or the rest runs. -/
theorem dispatch_withReg_eq_next {len : Nat} {w : Word} {rest : Reg → Handler} (h : dispatch len (withReg w s rest) = .next t) :
    (3 < w.toNat ∧ t = s.fail .illegalOperand) ∨ ∃ r, w = Reg.selector r ∧ dispatch len (rest r) = .next t := by
  rcases withReg_cases w s rest with ⟨r, rfl, h1⟩ | ⟨hb, h1⟩ <;> rw [h1] at h
  · exact .inr ⟨r, rfl, h⟩
  · exact .inl ⟨hb, by simpa using h.symm⟩

/-- A conditional jump sets `IP` and nothing else. -/
theorem dispatch_branchIf {p : Prop} [Decidable p] (x : Word) (s : State) :
    dispatch 2 (branchIf (decide p) x s) = .next { s with ip := if p then x else s.ip + 2 } := by
  by_cases hp : p <;> simp [hp]

/-- Everything an instruction can do. -/
theorem exec_cases {i : Instr} (h : exec i s = .next t) :
    (∃ w ∈ selectorWords i, 3 < w.toNat ∧ t = s.fail .illegalOperand) ∨ Effect s t i := by
  cases i
  case nop => simp only [exec, execNop, dispatch_jumpTo, Host.Outcome.next.injEq] at h; exact .inr h.symm
  case halt => simp only [exec, execHalt, dispatch_raise, Host.Outcome.next.injEq] at h; exact .inr h.symm
  case jmp => simp only [exec, execJmp, dispatch_jumpTo, Host.Outcome.next.injEq] at h; exact .inr h.symm
  case loop => simp only [exec, execLoop, dispatch_branchIf, Host.Outcome.next.injEq] at h; exact .inr h.symm
  case jz => simp only [exec, execJz, State.resultZero, dispatch_branchIf, Host.Outcome.next.injEq] at h; exact .inr h.symm
  case jnz =>
    simp only [exec, execJnz, State.resultNonzero, dispatch_branchIf, Host.Outcome.next.injEq] at h; exact .inr h.symm
  case jgt =>
    simp only [exec, execJgt, State.resultPositive, dispatch_branchIf, Host.Outcome.next.injEq] at h; exact .inr h.symm
  case call =>
    simp only [exec, execCall, dispatch_eq_next, pushThen_eq_next] at h
    obtain ⟨hd, ⟨hc, rfl⟩ | ⟨hc, hb, hh⟩, rfl⟩ := h
    · exact .inr (.inl ⟨hc, rfl⟩)
    · obtain rfl : _ = hd := by simpa [jumpTo] using hh
      exact .inr (.inr ⟨hc, hb, rfl⟩)
  case ret =>
    simp only [exec, execRet] at h
    split_ifs at h with h0
    · exact .inr (.inl ⟨h0, by simpa using h.symm⟩)
    · simp only [dispatch_eq_next, readThen_eq_next, writeThen_eq_next] at h
      obtain ⟨hd, ⟨hb, -, hh⟩, rfl⟩ := h
      obtain rfl : _ = hd := by simpa [jumpTo] using hh
      exact .inr (.inr ⟨h0, hb, rfl⟩)
  case swap w1 w2 =>
    rcases dispatch_withReg_eq_next h with ⟨h1, h2⟩ | ⟨r1, rfl, h'⟩
    · exact .inl ⟨w1, by simp [selectorWords], h1, h2⟩
    rcases dispatch_withReg_eq_next h' with ⟨h1, h2⟩ | ⟨r2, rfl, h3⟩
    · exact .inl ⟨w2, by simp [selectorWords], h1, h2⟩
    simp only [dispatch_proceed, Host.Outcome.next.injEq, State.setReg_ip] at h3
    exact .inr ⟨r1, r2, rfl, rfl, h3.symm⟩
  case cmp w1 w2 =>
    rcases dispatch_withReg_eq_next h with ⟨h1, h2⟩ | ⟨r1, rfl, h'⟩
    · exact .inl ⟨w1, by simp [selectorWords], h1, h2⟩
    rcases dispatch_withReg_eq_next h' with ⟨h1, h2⟩ | ⟨r2, rfl, h3⟩
    · exact .inl ⟨w2, by simp [selectorWords], h1, h2⟩
    simp only [dispatch_proceed, Host.Outcome.next.injEq] at h3
    exact .inr ⟨r1, r2, rfl, rfl, h3.symm⟩
  all_goals
    rcases dispatch_withReg_eq_next h with ⟨h1, h2⟩ | ⟨r, rfl, h'⟩
    · exact .inl ⟨_, by simp [selectorWords], h1, h2⟩
    refine .inr ⟨r, rfl, ?_⟩
  case add => simp only [dispatch_proceed, Host.Outcome.next.injEq] at h'; exact h'.symm
  case sub => simp only [dispatch_proceed, Host.Outcome.next.injEq] at h'; exact h'.symm
  case mul => simp only [dispatch_proceed, Host.Outcome.next.injEq] at h'; exact h'.symm
  case inc => simp only [dispatch_proceed, Host.Outcome.next.injEq, State.setReg_ip] at h'; exact h'.symm
  case dec => simp only [dispatch_proceed, Host.Outcome.next.injEq, State.setReg_ip] at h'; exact h'.symm
  case movr => simp only [dispatch_proceed, Host.Outcome.next.injEq, State.setReg_ip] at h'; exact h'.symm
  case out => simp only [dispatch_proceed, Host.Outcome.next.injEq] at h'; exact h'.symm
  case inp => simp only [dispatch_next, Host.Outcome.next.injEq] at h'; exact h'.symm
  case get => simp only [dispatch_next, Host.Outcome.next.injEq] at h'; exact h'.symm
  case div =>
    simp only [dispatch_eq_next, divideA_eq_next] at h'
    obtain ⟨hd, ⟨h0, rfl⟩ | ⟨h0, h1, h2, rfl⟩ | ⟨h0, h1, rfl⟩, rfl⟩ := h'
    · exact .inl ⟨h0, rfl⟩
    · exact .inr (.inl ⟨h0, h1, h2, rfl⟩)
    · exact .inr (.inr ⟨h0, h1, rfl⟩)
  case load =>
    rename_i o
    by_cases hv : s.slotValid (s.frameSlot o)
    · simp only [withFrameSlot_valid hv, dispatch_eq_next, readThen_eq_next, proceed_eq_next] at h'
      obtain ⟨hd, ⟨hb, rfl⟩, rfl⟩ := h'
      exact .inr ⟨hv, hb, by simp⟩
    · exact .inl ⟨hv, by simpa [withFrameSlot_invalid hv] using h'.symm⟩
  case store =>
    rename_i o
    by_cases hv : s.slotValid (s.frameSlot o)
    · simp only [withFrameSlot_valid hv, dispatch_eq_next, writeThen_eq_next, proceed_eq_next] at h'
      obtain ⟨hd, ⟨hb, rfl⟩, rfl⟩ := h'
      exact .inr ⟨hv, hb, by simp⟩
    · exact .inl ⟨hv, by simpa [withFrameSlot_invalid hv] using h'.symm⟩
  case push =>
    simp only [dispatch_eq_next, pushThen_eq_next, proceed_eq_next] at h'
    obtain ⟨hd, ⟨hc, rfl⟩ | ⟨hc, hb, rfl⟩, rfl⟩ := h'
    · exact .inl ⟨hc, rfl⟩
    · exact .inr ⟨hc, hb, rfl⟩
  case pop =>
    split_ifs at h' with h0
    · exact .inl ⟨h0, by simpa using h'.symm⟩
    · simp only [dispatch_eq_next, readThen_eq_next, proceed_eq_next] at h'
      obtain ⟨hd, ⟨hb, rfl⟩, rfl⟩ := h'
      exact .inr ⟨h0, hb, by simp⟩
  case put =>
    split_ifs at h' with h0
    · exact .inl ⟨h0, by simpa using h'.symm⟩
    · simp only [dispatch_proceed, Host.Outcome.next.injEq] at h'; exact .inr ⟨h0, h'.symm⟩

end Sys2Proof.Machine
end

