-- ==== Sys2Proof/Laws/PerInstr.lean ====
section
/-! SUPPORT. Statements for all instructions, made per instruction. -/

namespace Sys2Proof.Laws

/-- The encoding of an instruction has the length its format gives (spec/30_encoding.md R53), between 1 and 3 words (R50),
starts with its opcode number (R51), and the table's row for that number takes the operand words back (R52, R61). -/
def EncodeShape.Statement (i : Instr) : Prop :=
  (encode i).length = i.length ∧ 1 ≤ i.length ∧ i.length ≤ 3 ∧
    ∃ row, opcodeRow i.opcode = some row ∧ row.length = i.length ∧ row.fill (fun k => (encode i).getD k 0) = i

theorem EncodeShape.nop : EncodeShape.Statement (Instr.nop) :=
  ⟨rfl, Nat.le_of_ble_eq_true rfl, Nat.le_of_ble_eq_true rfl, _, rfl, rfl, rfl⟩
theorem EncodeShape.halt : EncodeShape.Statement (Instr.halt) :=
  ⟨rfl, Nat.le_of_ble_eq_true rfl, Nat.le_of_ble_eq_true rfl, _, rfl, rfl, rfl⟩
theorem EncodeShape.add (x : Word) : EncodeShape.Statement (Instr.add x) :=
  ⟨rfl, Nat.le_of_ble_eq_true rfl, Nat.le_of_ble_eq_true rfl, _, rfl, rfl, rfl⟩
theorem EncodeShape.sub (x : Word) : EncodeShape.Statement (Instr.sub x) :=
  ⟨rfl, Nat.le_of_ble_eq_true rfl, Nat.le_of_ble_eq_true rfl, _, rfl, rfl, rfl⟩
theorem EncodeShape.mul (x : Word) : EncodeShape.Statement (Instr.mul x) :=
  ⟨rfl, Nat.le_of_ble_eq_true rfl, Nat.le_of_ble_eq_true rfl, _, rfl, rfl, rfl⟩
theorem EncodeShape.div (x : Word) : EncodeShape.Statement (Instr.div x) :=
  ⟨rfl, Nat.le_of_ble_eq_true rfl, Nat.le_of_ble_eq_true rfl, _, rfl, rfl, rfl⟩
theorem EncodeShape.inc (x : Word) : EncodeShape.Statement (Instr.inc x) :=
  ⟨rfl, Nat.le_of_ble_eq_true rfl, Nat.le_of_ble_eq_true rfl, _, rfl, rfl, rfl⟩
theorem EncodeShape.dec (x : Word) : EncodeShape.Statement (Instr.dec x) :=
  ⟨rfl, Nat.le_of_ble_eq_true rfl, Nat.le_of_ble_eq_true rfl, _, rfl, rfl, rfl⟩
theorem EncodeShape.loop (x : Word) : EncodeShape.Statement (Instr.loop x) :=
  ⟨rfl, Nat.le_of_ble_eq_true rfl, Nat.le_of_ble_eq_true rfl, _, rfl, rfl, rfl⟩
theorem EncodeShape.movr (x y : Word) : EncodeShape.Statement (Instr.movr x y) :=
  ⟨rfl, Nat.le_of_ble_eq_true rfl, Nat.le_of_ble_eq_true rfl, _, rfl, rfl, rfl⟩
theorem EncodeShape.load (x y : Word) : EncodeShape.Statement (Instr.load x y) :=
  ⟨rfl, Nat.le_of_ble_eq_true rfl, Nat.le_of_ble_eq_true rfl, _, rfl, rfl, rfl⟩
theorem EncodeShape.store (x y : Word) : EncodeShape.Statement (Instr.store x y) :=
  ⟨rfl, Nat.le_of_ble_eq_true rfl, Nat.le_of_ble_eq_true rfl, _, rfl, rfl, rfl⟩
theorem EncodeShape.inp (x : Word) : EncodeShape.Statement (Instr.inp x) :=
  ⟨rfl, Nat.le_of_ble_eq_true rfl, Nat.le_of_ble_eq_true rfl, _, rfl, rfl, rfl⟩
theorem EncodeShape.get (x : Word) : EncodeShape.Statement (Instr.get x) :=
  ⟨rfl, Nat.le_of_ble_eq_true rfl, Nat.le_of_ble_eq_true rfl, _, rfl, rfl, rfl⟩
theorem EncodeShape.out (x : Word) : EncodeShape.Statement (Instr.out x) :=
  ⟨rfl, Nat.le_of_ble_eq_true rfl, Nat.le_of_ble_eq_true rfl, _, rfl, rfl, rfl⟩
theorem EncodeShape.put (x : Word) : EncodeShape.Statement (Instr.put x) :=
  ⟨rfl, Nat.le_of_ble_eq_true rfl, Nat.le_of_ble_eq_true rfl, _, rfl, rfl, rfl⟩
theorem EncodeShape.swap (x y : Word) : EncodeShape.Statement (Instr.swap x y) :=
  ⟨rfl, Nat.le_of_ble_eq_true rfl, Nat.le_of_ble_eq_true rfl, _, rfl, rfl, rfl⟩
theorem EncodeShape.push (x : Word) : EncodeShape.Statement (Instr.push x) :=
  ⟨rfl, Nat.le_of_ble_eq_true rfl, Nat.le_of_ble_eq_true rfl, _, rfl, rfl, rfl⟩
theorem EncodeShape.pop (x : Word) : EncodeShape.Statement (Instr.pop x) :=
  ⟨rfl, Nat.le_of_ble_eq_true rfl, Nat.le_of_ble_eq_true rfl, _, rfl, rfl, rfl⟩
theorem EncodeShape.cmp (x y : Word) : EncodeShape.Statement (Instr.cmp x y) :=
  ⟨rfl, Nat.le_of_ble_eq_true rfl, Nat.le_of_ble_eq_true rfl, _, rfl, rfl, rfl⟩
theorem EncodeShape.jmp (x : Word) : EncodeShape.Statement (Instr.jmp x) :=
  ⟨rfl, Nat.le_of_ble_eq_true rfl, Nat.le_of_ble_eq_true rfl, _, rfl, rfl, rfl⟩
theorem EncodeShape.jz (x : Word) : EncodeShape.Statement (Instr.jz x) :=
  ⟨rfl, Nat.le_of_ble_eq_true rfl, Nat.le_of_ble_eq_true rfl, _, rfl, rfl, rfl⟩
theorem EncodeShape.jnz (x : Word) : EncodeShape.Statement (Instr.jnz x) :=
  ⟨rfl, Nat.le_of_ble_eq_true rfl, Nat.le_of_ble_eq_true rfl, _, rfl, rfl, rfl⟩
theorem EncodeShape.jgt (x : Word) : EncodeShape.Statement (Instr.jgt x) :=
  ⟨rfl, Nat.le_of_ble_eq_true rfl, Nat.le_of_ble_eq_true rfl, _, rfl, rfl, rfl⟩
theorem EncodeShape.call (x : Word) : EncodeShape.Statement (Instr.call x) :=
  ⟨rfl, Nat.le_of_ble_eq_true rfl, Nat.le_of_ble_eq_true rfl, _, rfl, rfl, rfl⟩
theorem EncodeShape.ret : EncodeShape.Statement (Instr.ret) :=
  ⟨rfl, Nat.le_of_ble_eq_true rfl, Nat.le_of_ble_eq_true rfl, _, rfl, rfl, rfl⟩

/-- The case split over the constructors. -/
theorem EncodeShape.all (i : Instr) : EncodeShape.Statement i := by
  cases i with
  | nop => exact EncodeShape.nop
  | halt => exact EncodeShape.halt
  | add x => exact EncodeShape.add x
  | sub x => exact EncodeShape.sub x
  | mul x => exact EncodeShape.mul x
  | div x => exact EncodeShape.div x
  | inc x => exact EncodeShape.inc x
  | dec x => exact EncodeShape.dec x
  | loop x => exact EncodeShape.loop x
  | movr x y => exact EncodeShape.movr x y
  | load x y => exact EncodeShape.load x y
  | store x y => exact EncodeShape.store x y
  | inp x => exact EncodeShape.inp x
  | get x => exact EncodeShape.get x
  | out x => exact EncodeShape.out x
  | put x => exact EncodeShape.put x
  | swap x y => exact EncodeShape.swap x y
  | push x => exact EncodeShape.push x
  | pop x => exact EncodeShape.pop x
  | cmp x y => exact EncodeShape.cmp x y
  | jmp x => exact EncodeShape.jmp x
  | jz x => exact EncodeShape.jz x
  | jnz x => exact EncodeShape.jnz x
  | jgt x => exact EncodeShape.jgt x
  | call x => exact EncodeShape.call x
  | ret => exact EncodeShape.ret

end Sys2Proof.Laws
end

