-- ==== Sys2Proof/Tests/Slice0.lean ====
section
/-! SUPPORT. Small tests: the well-formedness checks refuse, every constructor is decoded from words written out from
spec/30_encoding.md section 3, single steps give what the vectors of spec/95_test_vectors.md (E, V ids) say, and every
statement with hypotheses has a witness. -/

namespace Sys2Proof.Tests

open Sys2Proof Sys2Proof.Machine

/-! ## Helpers -/

/-- The standard geometry of spec/95_test_vectors.md: 16 words, a stack of 4, so `stackBottom` 15 and `stackLimit` 11. -/
def geometry : Params where
  isaConfig := .jmpCall
  memWords := 16
  stackCapacity := 4
  haltIpAdvance := 0
  divOverflow := .refuse

/-- A unit of the standard geometry with these words from index 0 on. -/
def unit (words : List Word) : State :=
  { State.reset with params := geometry, mem := Memory.placeWords [] 0 words }

/-- The unit in another configuration. -/
def unitIn (cfg : IsaConfig) (words : List Word) : State :=
  { unit words with params := { geometry with isaConfig := cfg } }

/-- The state with a stack of `size` words, and these words at index 12 on (slots 12 to 15). -/
def withStack (s : State) (size : Word) (slots : List Word) : State :=
  { s with stackSize := size, mem := s.mem.placeWords 12 slots }

/-- What one step leaves, as seen through `f`; none where it has no next state. -/
def after {α : Type} (s : State) (f : State → α) : Option α :=
  match step s with
  | .next t => some (f t)
  | .fault _ => none
  | .refused _ => none

/-- `exec` of an instruction answers a next state. -/
def completes (i : Instr) (s : State) : Bool :=
  match exec i s with
  | .next _ => true
  | .fault _ => false
  | .refused _ => false

/-- The invariant as a computation, so that a concrete state's is decided. -/
def soundB (s : State) : Bool :=
  decide s.params.wellFormed && decide (0 ≤ s.stackSize.toInt) && decide (s.stackSize.toInt ≤ s.params.stackCapacity) &&
    decide s.mem.wf && s.mem.all (fun cell => decide (cell.1 < 4 * s.params.memWords)) &&
    decide (s.mem.readWord s.params.stackLimit.toNat = 0) &&
    (decide (s.params.isaConfig ≠ .base) || decide (s.result = 0))

theorem inv_of_soundB {s : State} (h : soundB s = true) : s.Inv := by
  simp only [soundB, Bool.and_eq_true, Bool.or_eq_true, decide_eq_true_eq, List.all_eq_true] at h
  obtain ⟨⟨⟨⟨⟨⟨h1, h2⟩, h3⟩, h4⟩, h5⟩, h6⟩, h7⟩ := h
  exact ⟨h1, h2, h3, h4, h5, h6, fun hb => h7.resolve_left fun hn => hn hb⟩

/-! ## Well-formedness: each check refuses an ill-formed term -/

theorem test_wf_cmp_base : (Instr.cmp 0 1).wellFormed .base = false := by decide
theorem test_wf_jgt_base : (Instr.jgt 0).wellFormed .base = false := by decide
theorem test_wf_ret_base : Instr.ret.wellFormed .base = false := by decide
theorem test_wf_call_jmp : (Instr.call 0).wellFormed .jmp = false := by decide
theorem test_wf_bad_selector_is_wellformed : (Instr.add 7).wellFormed .base = true := by decide
theorem test_wf_params_no_words : ¬({ geometry with memWords := 0 } : Params).wellFormed := by decide
theorem test_wf_params_too_many_words : ¬({ geometry with memWords := 2147483649 } : Params).wellFormed := by decide
theorem test_wf_params_stack_too_big : ¬({ geometry with stackCapacity := 16 } : Params).wellFormed := by decide
theorem test_wf_params_stack_largest : ({ geometry with stackCapacity := 15 } : Params).wellFormed := by decide

/-! ## Decoding: one word sequence for every row of the table -/

theorem test_decode_nop : decode .jmpCall [0] = .ok (.nop, []) := by rfl
theorem test_decode_halt : decode .jmpCall [1] = .ok (.halt, []) := by rfl
theorem test_decode_add : decode .jmpCall [2, 1] = .ok (.add 1, []) := by rfl
theorem test_decode_sub : decode .jmpCall [3, 2] = .ok (.sub 2, []) := by rfl
theorem test_decode_mul : decode .jmpCall [4, 3] = .ok (.mul 3, []) := by rfl
theorem test_decode_div : decode .jmpCall [5, 1] = .ok (.div 1, []) := by rfl
theorem test_decode_inc : decode .jmpCall [6, 1] = .ok (.inc 1, []) := by rfl
theorem test_decode_dec : decode .jmpCall [7, 2] = .ok (.dec 2, []) := by rfl
theorem test_decode_loop : decode .jmpCall [8, 6] = .ok (.loop 6, []) := by rfl
theorem test_decode_movr : decode .jmpCall [9, 0, 5] = .ok (.movr 0 5, []) := by rfl
theorem test_decode_load : decode .jmpCall [10, 3, 1] = .ok (.load 3 1, []) := by rfl
theorem test_decode_store : decode .jmpCall [11, 1, 0xFFFFFFFF] = .ok (.store 1 (-1), []) := by rfl
theorem test_decode_inp : decode .jmpCall [12, 1] = .ok (.inp 1, []) := by rfl
theorem test_decode_get : decode .jmpCall [13, 0] = .ok (.get 0, []) := by rfl
theorem test_decode_out : decode .jmpCall [14, 0] = .ok (.out 0, []) := by rfl
theorem test_decode_put : decode .jmpCall [15, 1] = .ok (.put 1, []) := by rfl
theorem test_decode_swap : decode .jmpCall [16, 0, 3] = .ok (.swap 0 3, []) := by rfl
theorem test_decode_push : decode .jmpCall [17, 0] = .ok (.push 0, []) := by rfl
theorem test_decode_pop : decode .jmpCall [18, 1] = .ok (.pop 1, []) := by rfl
theorem test_decode_cmp : decode .jmpCall [19, 0, 1] = .ok (.cmp 0 1, []) := by rfl
theorem test_decode_jmp : decode .jmpCall [20, 11] = .ok (.jmp 11, []) := by rfl
theorem test_decode_jz : decode .jmpCall [21, 12] = .ok (.jz 12, []) := by rfl
theorem test_decode_jnz : decode .jmpCall [22, 4] = .ok (.jnz 4, []) := by rfl
theorem test_decode_jgt : decode .jmpCall [23, 8] = .ok (.jgt 8, []) := by rfl
theorem test_decode_call : decode .jmpCall [24, 8] = .ok (.call 8, []) := by rfl
theorem test_decode_ret : decode .jmpCall [25] = .ok (.ret, []) := by rfl

/-- The words after the instruction are left over. -/
theorem test_decode_rest : decode .base [2, 1, 9, 9] = .ok (.add 1, [9, 9]) := by rfl
/-- V9, V10: −1 and 26 are no opcodes. -/
theorem test_decode_illegal : decode .jmpCall [0xFFFFFFFF] = .error (.illegalOpcode 0xFFFFFFFF) ∧
    decode .jmpCall [26] = .error (.illegalOpcode 26) := ⟨by rfl, by rfl⟩
/-- An opcode whose low byte alone is an opcode is illegal: the whole word counts (spec/30_encoding.md R51). -/
theorem test_decode_high_bits : decode .jmpCall [0x00000101] = .error (.illegalOpcode 0x101) := by rfl
theorem test_decode_truncated : decode .jmpCall [9, 0] = .error (.truncated 9) := by rfl
/-- E3: `cmp A B` as it stands in the program file. -/
theorem test_decode_bytes :
    decodeBytes .jmp [0x13, 0, 0, 0, 0, 0, 0, 0, 1, 0, 0, 0] = .ok (.cmp 0 1, []) := by rfl
theorem test_encode_bytes : encodeBytes (.jz 12) = [0x15, 0, 0, 0, 0x0c, 0, 0, 0] := by decide
/-- The table's row of `movr` with its operand words: bit 0 is the first word's lowest. -/
theorem test_table_movr : decodeTableWord 96 0x0000000500000002_00000009 = some (.movr 2 5) := by rfl
theorem test_table_ret : decodeTableWord 32 25 = some .ret := by rfl
theorem test_table_illegal : decodeTableWord 32 26 = none := by rfl
theorem test_file_length : programOfFile [1, 0, 0, 0, 7] = none ∧ programOfFile [1, 0, 0, 0] = some [1] := by decide

/-! ## The dispatch loop -/

/-- V5, V6. -/
theorem test_step_ip_out_of_range :
    after { unit [] with ip := 11 } (fun t => (t.status, t.ip)) = some (.invalidAddress, 11) ∧
    after { unit [] with ip := -1 } (fun t => (t.status, t.ip)) = some (.invalidAddress, -1) := by decide
/-- V11, V13. -/
theorem test_step_configurations :
    after (unitIn .base [19, 0, 1]) (fun t => (t.status, t.ip)) = some (.illegalInstruction, 0) ∧
    after (unitIn .jmp [24, 5]) (fun t => (t.status, t.ip)) = some (.illegalInstruction, 0) := by decide
/-- V15, V18: check 3 comes before check 4, and check 4 before the operands. -/
theorem test_step_check_order :
    after { unit [0, 0, 0, 0, 0, 0, 0, 0, 0, 9, 0] with ip := 9 } (fun t => (t.status, t.a, t.ip)) =
      some (.invalidAddress, 0, 9) ∧
    after { unit [0, 0, 0, 0, 0, 0, 0, 0, 0, 0, 77] with ip := 10 } (fun t => t.status) = some .illegalInstruction := by
  decide
/-- V3, V4. -/
theorem test_step_stopped : after { unit [2, 1] with status := .halted } id = some { unit [2, 1] with status := .halted } := by
  decide
/-- The instruction placed is the first one that runs after reset: `push A` fills `stackBottom` of the reset geometry. -/
theorem test_withFetchWord :
    after (State.reset.withFetchWord 64 17) (fun t => (t.stackSize, t.ip, t.status)) = some (1, 2, .ok) := by decide
/-- E2: an illegal first word makes `run` answer −1. -/
theorem test_run_illegal : run 5 (unit [999]) = .next ({ unit [999] with status := .illegalInstruction }, -1) := by rfl
/-- V153, V154. -/
theorem test_run_stopped :
    run 10 { unit [] with status := .halted } = .next ({ unit [] with status := .halted }, 1) ∧
    run 10 { unit [] with status := .illegalInstruction } = .next ({ unit [] with status := .illegalInstruction }, -1) :=
  ⟨by rfl, by rfl⟩
/-- V155. -/
theorem test_peek : ['A', 'B', 'C', 'D', 'S', 'I', 'a', 'R', 'X'].map
    { unit [] with a := 1, b := 2, c := 3, d := 4, stackSize := 2, ip := 7, result := 9 }.peek =
      [1, 2, 3, 4, 2, 7, 0, 0, 0] := by decide
/-- V156, V157: the status codes of spec/10_state.md R16. -/
theorem test_status_codes : [Status.ok, .halted, .illegalInstruction, .illegalOperand, .invalidAddress,
    .invalidStackOperation, .divByZero, .ioError].map Status.code = [0, 1, 2, 3, 4, 5, 6, 7] := by decide
/-- `State.reset` is what create gives for its parameters and an empty program. -/
theorem test_reset_is_created : create [] Params.atReset Ports.atReset = .next State.reset := by rfl
/-- V152: reset zeroes the stack and the boundary word and keeps the program. -/
theorem test_reset_keeps_program :
    ((withStack { unit [9, 0, 5] with a := 8, status := .halted } 1 [0, 0, 0, 42]).resetUnit) = unit [9, 0, 5] := by decide

/-! ## One step of each instruction -/

/-- V1. -/
theorem test_nop : after (unit [0]) id = some { unit [0] with ip := 1 } := by decide
/-- V2. -/
theorem test_halt : after (unit [1]) id = some { unit [1] with status := .halted } := by decide
/-- spec/40_dispatch.md R81 with `HALT_IP_ADVANCE` 1. -/
theorem test_halt_advance :
    after { unit [1] with params := { geometry with haltIpAdvance := 1 } } (fun t => (t.status, t.ip)) =
      some (.halted, 1) := by decide
/-- V22. -/
theorem test_add_wraps : after { unit [2, 1] with a := 0x7FFFFFFF, b := 1 } (fun t => (t.a, t.b, t.ip)) =
    some (0x80000000, 1, 2) := by decide
/-- V23: the source is also the destination. -/
theorem test_add_self : after { unit [2, 0] with a := 0x80000000 } (fun t => t.a) = some 0 := by decide
/-- V26. -/
theorem test_sub : after { unit [3, 1] with a := 5, b := 7 } (fun t => (t.a, t.b)) = some (-2, 7) := by decide
/-- V27. -/
theorem test_sub_wraps : after { unit [3, 1] with a := 0x80000000, b := 1 } (fun t => t.a) = some 0x7FFFFFFF := by decide
/-- V31. -/
theorem test_mul_min : after { unit [4, 1] with a := 0x80000000, b := -1 } (fun t => t.a) = some 0x80000000 := by decide
/-- V32. -/
theorem test_mul_wraps :
    after { unit [4, 1] with a := 123456789, b := 1000 } (fun t => t.a) = some (-1097262584) := by decide
/-- V34: truncation toward zero. -/
theorem test_div_truncates :
    after { unit [5, 1] with a := -7, b := 2 } (fun t => t.a) = some (-3) ∧
    after { unit [5, 1] with a := 7, b := -2 } (fun t => t.a) = some (-3) := by decide
/-- V37, V39a. -/
theorem test_div_corners :
    after { unit [5, 1] with a := 0x80000000, b := -1 } id = none ∧
    after { unit [5, 1] with a := 0x80000000, b := -1, params := { geometry with divOverflow := .wrap } } (fun t => t.a) =
      some 0x80000000 ∧
    after { unit [5, 4] with a := 5 } (fun t => (t.status, t.a)) = some (.illegalOperand, 5) := by decide
/-- V39b. -/
theorem test_inc : after { unit [6, 1] with b := 0x7FFFFFFF } (fun t => (t.a, t.b)) = some (0, 0x80000000) := by decide
/-- V39c. -/
theorem test_dec : after { unit [7, 2] with c := 0x80000000 } (fun t => t.c) = some 0x7FFFFFFF := by decide
/-- V112. -/
theorem test_loop_negative : after { unit [8, 6] with c := -1 } (fun t => (t.ip, t.c)) = some (6, -1) := by decide
/-- V111. -/
theorem test_loop_zero : after { unit [0, 0, 8, 6] with ip := 2 } (fun t => t.ip) = some 4 := by decide
/-- V43. -/
theorem test_movr : after (unit [9, 3, 0x7FFFFFFF]) (fun t => (t.peek 'D', t.ip)) = some (0x7FFFFFFF, 3) := by decide
/-- V44. -/
theorem test_movr_bad : after (unit [9, 4, 5]) id = some { unit [9, 4, 5] with status := .illegalOperand } := by decide
/-- V75: the old D is used. -/
theorem test_load_old_d :
    after (withStack { unit [10, 3, 0] with d := 1 } 2 [0, 0, 7, 4]) (fun t => (t.d, t.ip)) = some (4, 3) := by decide
/-- V72, V69: the slots just outside the stack region. -/
theorem test_load_bounds :
    after (withStack (unit [10, 0, -3]) 2 [0, 0, 7, 4]) (fun t => t.status) = some .invalidStackOperation ∧
    after (withStack (unit [10, 0, 2]) 2 [0, 0, 7, 4]) (fun t => t.status) = some .invalidStackOperation := by decide
/-- V81: a store does not push. -/
theorem test_store :
    after (withStack { unit [11, 1, -1] with b := 55 } 2 [0, 0, 7, 4]) (fun t => (t.mem.readWord 13, t.stackSize)) =
      some (55, 2) := by decide
/-- V78, for `store`: the sum does not wrap. -/
theorem test_store_no_wrap :
    after (withStack { unit [11, 0, 0x7FFFFFFF] with d := 0x7FFFFFFF } 2 []) (fun t => t.status) =
      some .invalidStackOperation := by decide
/-- V92: at end of input REG is written after C. -/
theorem test_in_end_of_input :
    after { unit [12, 2] with c := 5, ports := { Ports.atReset with intAnswers := [.endOfInput] } }
      (fun t => (t.c, t.status, t.ip)) = some (-1, .ok, 2) := by decide
/-- V93. -/
theorem test_in_malformed :
    after { unit [12, 1] with b := 3, ports := { Ports.atReset with intAnswers := [.malformed] } }
      (fun t => (t.b, t.status, t.ip)) = some (3, .ioError, 0) := by decide
/-- V96. -/
theorem test_get_255 :
    after { unit [13, 0] with ports := { Ports.atReset with charAnswers := [.value 255] } } (fun t => t.a) = some 255 := by
  decide
/-- V97. -/
theorem test_get_end_of_input :
    after { unit [13, 0] with c := 1, ports := { Ports.atReset with charAnswers := [.endOfInput] } }
      (fun t => (t.a, t.c, t.status)) = some (-1, 0, .ok) := by decide
/-- V100, with the bytes of R116: `-2147483648`. -/
theorem test_out_min :
    after { unit [14, 0] with a := 0x80000000 } (fun t => (t.ports.output, renderOutput t.ports.output)) =
      some ([.outInt 0x80000000], [45, 50, 49, 52, 55, 52, 56, 51, 54, 52, 56]) := by decide
/-- V101. -/
theorem test_out_bad : after (unit [14, 9]) (fun t => (t.status, t.ports.output)) = some (.illegalOperand, []) := by decide
/-- V102. -/
theorem test_put_254 : after { unit [15, 1] with b := 254 } (fun t => t.ports.output) = some [.outByte 254] := by decide
/-- V103. -/
theorem test_put_255 :
    after { unit [15, 1] with b := 255 } (fun t => (t.status, t.ports.output)) = some (.illegalOperand, []) := by decide
/-- V45. -/
theorem test_swap : after { unit [16, 0, 3] with a := 1, d := 9 } (fun t => (t.a, t.d, t.ip)) = some (9, 1, 3) := by decide
/-- V47: the second selector is bad and the first register is kept. -/
theorem test_swap_bad :
    after { unit [16, 0, 4] with a := 1 } (fun t => (t.status, t.a, t.ip)) = some (.illegalOperand, 1, 0) := by decide
/-- V62. -/
theorem test_push_last :
    after (withStack { unit [17, 0] with a := 42 } 3 [0, 3, 2, 1]) (fun t => (t.mem.readWord 12, t.stackSize)) =
      some (42, 4) := by decide
/-- V61, V63. -/
theorem test_push_full :
    after { unit [17, 0] with stackSize := 4 } (fun t => (t.status, t.stackSize)) = some (.invalidStackOperation, 4) ∧
    after { unit [17, 5] with stackSize := 4 } (fun t => t.status) = some .illegalOperand := by decide
/-- V64: the slot is kept. -/
theorem test_pop :
    after (withStack (unit [18, 1]) 1 [0, 0, 0, 42]) (fun t => (t.b, t.stackSize, t.mem.readWord 15)) = some (42, 0, 42) := by
  decide
/-- V65. -/
theorem test_pop_empty : after (unit [18, 1]) (fun t => (t.status, t.stackSize)) = some (.invalidStackOperation, 0) := by decide
/-- V118. -/
theorem test_cmp_wraps :
    after { unit [19, 0, 1] with a := 0x80000000, b := 1 } (fun t => (t.result, t.a)) = some (0x7FFFFFFF, 0x80000000) := by
  decide
/-- V121. -/
theorem test_cmp_bad :
    after { unit [19, 0, -1] with result := 7 } (fun t => (t.status, t.result)) = some (.illegalOperand, 7) := by decide
/-- V123: a target out of range is not checked by the jump. -/
theorem test_jmp : after (unit [20, 11]) (fun t => (t.ip, t.status)) = some (11, .ok) := by decide
/-- V124, V125. -/
theorem test_jz : after (unit [21, 12]) (fun t => t.ip) = some 12 ∧
    after { unit [21, 12] with result := -5 } (fun t => t.ip) = some 2 := by decide
/-- V126, V127. -/
theorem test_jnz : after { unit [22, 4] with result := -3 } (fun t => t.ip) = some 4 ∧
    after (unit [22, 4]) (fun t => t.ip) = some 2 := by decide
/-- V128, V129. -/
theorem test_jgt : after { unit [23, 8] with result := 0x7FFFFFFF } (fun t => t.ip) = some 8 ∧
    after { unit [23, 8] with result := 0x80000000 } (fun t => t.ip) = some 2 := by decide
/-- V138: a `call` that ends at `stackLimit − 1`. -/
theorem test_call :
    after { unit [0, 0, 0, 0, 0, 0, 0, 0, 0, 24, 0] with ip := 9 } (fun t => (t.mem.readWord 15, t.stackSize, t.ip)) =
      some (11, 1, 0) := by decide
/-- V137. -/
theorem test_call_full :
    after { unit [24, 8] with stackSize := 4 } (fun t => (t.status, t.stackSize, t.ip)) =
      some (.invalidStackOperation, 4, 0) := by decide
/-- V140. -/
theorem test_ret :
    after (withStack (unit [25]) 2 [0, 0, 3, 5]) (fun t => (t.ip, t.stackSize, t.mem.readWord 14, t.mem.readWord 15)) =
      some (3, 1, 0, 5) := by decide
/-- V141. -/
theorem test_ret_empty : after (unit [25]) (fun t => (t.status, t.ip)) = some (.invalidStackOperation, 0) := by decide

/-! ## Witnesses: for each statement with hypotheses, states and operands that meet them all, each clause at its boundary -/

/-- A sound running unit: a program, one word on the stack. -/
def sample (words : List Word) : State := withStack (unit words) 1 [0, 0, 0, 5]

theorem inv_unit : (unit []).Inv := inv_of_soundB (by decide)

theorem witness_DecodeOfEncodeIsTheInstruction :
    (Instr.ret).wellFormed .jmpCall = true ∧ (Instr.cmp 7 0xFFFFFFFF).wellFormed .jmp = true ∧
      (Instr.pop 0).wellFormed .base = true := by decide
theorem witness_DecodedWordsAreTheEncoding : decode .jmp [19, 0, 1, 77] = .ok (.cmp 0 1, [77]) := by rfl
theorem witness_ConfigurationSetsOnlyTheOpcodeCount :
    (IsaConfig.base.instructionCount : Int) ≤ (19 : Word).toInt ∧
    ((unitIn .jmp [24, 5]).status = .ok ∧ (unitIn .jmp [24, 5]).ipInRange ∧
      ((unitIn .jmp [24, 5]).params.isaConfig.instructionCount : Int) ≤
        ((unitIn .jmp [24, 5]).mem.readWord (unitIn .jmp [24, 5]).ip.toInt.toNat).toInt) ∧
    (0 ≤ (18 : Word).toInt ∧ (18 : Word).toInt < IsaConfig.base.instructionCount) ∧
    completes (.movr 0 5) (unit []) = true := by decide
theorem witness_OpcodeWordsOutsideTheTableAreIllegal :
    (0 ≤ (25 : Word).toInt ∧ (25 : Word).toInt < IsaConfig.jmpCall.instructionCount) ∧
    ¬(0 ≤ (26 : Word).toInt ∧ (26 : Word).toInt < IsaConfig.jmpCall.instructionCount) ∧
    ¬(0 ≤ (-1 : Word).toInt ∧ (-1 : Word).toInt < IsaConfig.jmpCall.instructionCount) := by decide
/-- V16: the instruction ends at `stackLimit − 1`. -/
theorem witness_StepRunsTheDecodedInstruction :
    let s := { unit [0, 0, 0, 0, 0, 0, 0, 0, 9, 0, 5] with ip := 8 }
    s.status = .ok ∧ 0 ≤ s.ip.toInt ∧
      decode s.params.isaConfig [s.mem.readWord s.ip.toInt.toNat, s.mem.readWord (s.ip.toInt.toNat + 1),
        s.mem.readWord (s.ip.toInt.toNat + 2)] = .ok (.movr 0 5, []) ∧
      s.ip.toInt + ((Instr.movr 0 5).length : Int) = s.params.stackLimit := ⟨rfl, by decide, by rfl, by decide⟩
theorem witness_StepOnAStoppedMachineChangesNothing : ({ unit [] with status := .halted } : State).status ≠ .ok := by decide
theorem witness_IpOutsideTheFetchRangeSetsInvalidAddress :
    (let s := { unit [] with ip := 11 }
     s.status = .ok ∧ ¬(0 ≤ s.ip.toInt ∧ s.ip.toInt < s.params.stackLimit)) ∧
    (let s := { unit [] with ip := -1 }
     s.status = .ok ∧ ¬(0 ≤ s.ip.toInt ∧ s.ip.toInt < s.params.stackLimit)) ∧
    (unit []).status = .ok ∧ completes (.jmp 500) (unit []) = true := by decide
theorem witness_IllegalOpcodeSetsIllegalInstruction :
    (let s := unit [26]
     s.status = .ok ∧ s.ipInRange ∧ ¬(0 ≤ (s.mem.readWord s.ip.toInt.toNat).toInt ∧
      (s.mem.readWord s.ip.toInt.toNat).toInt < (s.params.isaConfig.instructionCount : Int))) ∧
    (let s := unit [-1]
     s.status = .ok ∧ s.ipInRange ∧ ¬(0 ≤ (s.mem.readWord s.ip.toInt.toNat).toInt ∧
      (s.mem.readWord s.ip.toInt.toNat).toInt < (s.params.isaConfig.instructionCount : Int))) := by decide
/-- V15 and V19: a three-word instruction one word too long, and a one-word instruction at `stackLimit − 1`. -/
theorem witness_InstructionPastStackLimitSetsInvalidAddress :
    (let s := { unit [0, 0, 0, 0, 0, 0, 0, 0, 0, 9, 0] with ip := 9 }
     s.status = .ok ∧ s.ipInRange ∧ (Instr.movr 0 0).wellFormed s.params.isaConfig = true ∧
      s.mem.readWord s.ip.toInt.toNat = BitVec.ofNat 32 (Instr.movr 0 0).opcode ∧
      s.params.stackLimit < s.ip.toInt + ((Instr.movr 0 0).length : Int)) ∧
    (let s := { unit [0, 0, 0, 0, 0, 0, 0, 0, 0, 0, 1] with ip := 10 }
     s.status = .ok ∧ s.ipInRange ∧ Instr.halt.wellFormed s.params.isaConfig = true ∧
      s.mem.readWord s.ip.toInt.toNat = BitVec.ofNat 32 Instr.halt.opcode ∧ Instr.halt.length = 1) := by decide
theorem witness_FailingStepWritesOnlyTheStatus :
    ∃ t, step (unit [5, 1]) = .next t ∧ (unit [5, 1]).status = .ok ∧ t.status ≠ .ok ∧ t.status ≠ .halted ∧
      t.status ≠ .ioError := ⟨_, rfl, by decide, by decide, by decide, by decide⟩
/-- The unit runs, the instruction is fetched and the step leaves the status. -/
def StepsTo (s : State) (i : Instr) (st : Status) : Prop :=
  ∃ t, s.status = .ok ∧ fetch s = .ok i ∧ step s = .next t ∧ t.status = st
/-- Each status by each of its causes, at its bound: slots 11 and 16, the full and the empty stack, selectors 4 and −1, the
values 255 and −1; and the values just inside, where the step ends with OK. -/
theorem witness_EveryStatusHasItsCause :
    StepsTo (unit [1]) .halt .halted ∧
    StepsTo (unit [5, 1]) (.div Reg.B.selector) .divByZero ∧
    (StepsTo (sample [10, 0, -4]) (.load Reg.A.selector (-4)) .invalidStackOperation ∧
      StepsTo (sample [11, 0, 1]) (.store Reg.A.selector 1) .invalidStackOperation ∧
      StepsTo (sample [10, 0, 0]) (.load Reg.A.selector 0) .ok) ∧
    (StepsTo (withStack (unit [17, 0]) 4 []) (.push Reg.A.selector) .invalidStackOperation ∧
      StepsTo (withStack (unit [24, 8]) 4 []) (.call 8) .invalidStackOperation ∧
      StepsTo (withStack (unit [17, 0]) 3 []) (.push Reg.A.selector) .ok) ∧
    (StepsTo (unit [18, 0]) (.pop Reg.A.selector) .invalidStackOperation ∧
      StepsTo (unit [25]) .ret .invalidStackOperation ∧ StepsTo (sample [25]) .ret .ok) ∧
    (StepsTo (unit [17, 4]) (.push 4) .illegalOperand ∧ StepsTo (unit [16, 0, -1]) (.swap 0 (-1)) .illegalOperand ∧
      StepsTo { unit [15, 0] with a := 255 } (.put Reg.A.selector) .illegalOperand ∧
      StepsTo { unit [15, 0] with a := -1 } (.put Reg.A.selector) .illegalOperand ∧
      StepsTo { unit [15, 0] with a := 254 } (.put Reg.A.selector) .ok) ∧
    StepsTo { unit [12, 0] with ports := { Ports.atReset with intAnswers := [.malformed] } } (.inp Reg.A.selector) .ioError ∧
    StepsTo { unit [13, 0] with ports := { Ports.atReset with charAnswers := [.malformed] } } (.get Reg.A.selector) .ioError := by
  refine ⟨?_, ?_, ⟨?_, ?_, ?_⟩, ⟨?_, ?_, ?_⟩, ⟨?_, ?_, ?_⟩, ⟨?_, ?_, ?_, ?_, ?_⟩, ?_, ?_⟩ <;>
    exact ⟨_, rfl, by rfl, rfl, by decide⟩
/-- A memory with another boundary word agrees below `stackLimit` (11). -/
theorem witness_FetchReadsOnlyWordsBelowStackLimit :
    (∀ k : Nat, (k : Int) < (unit [2, 1]).params.stackLimit →
      ((unit [2, 1]).mem.writeWord 11 9).readWord k = (unit [2, 1]).mem.readWord k) ∧
    fetch (unit [2, 1]) = .ok (.add 1) :=
  ⟨fun k hk => Memory.readWord_writeWord_ne _ _ (by
    have : (unit [2, 1]).params.stackLimit = 11 := by decide
    omega), by rfl⟩
/-- `store B −1` into slot 15 of a unit with one pushed word; words 11 and 16 lie just outside the stack region; another
program word leaves the region alone; slots 11 and 16 are invalid; the stack is at each of its ends. -/
theorem witness_InstructionsTouchOnlyTheStackRegion :
    (sample []).Inv ∧ completes (.store 1 0) (sample []) = true ∧
    (∀ k ∈ [(11 : Nat), 16], ¬((sample []).params.stackLimit < k ∧ (k : Int) ≤ (sample []).params.stackBottom)) ∧
    (((sample []).mem.writeWord 3 9).wf ∧
      ∀ k : Nat, (sample []).params.stackLimit < k → (k : Int) ≤ (sample []).params.stackBottom →
        ((sample []).mem.writeWord 3 9).readWord k = (sample []).mem.readWord k) ∧
    (¬(sample []).slotValid ((sample []).frameSlot (-4)) ∧ ¬(sample []).slotValid ((sample []).frameSlot 1)) ∧
    ((withStack (unit []) 3 []).stackSize.toInt < (unit []).params.stackCapacity ∧
      ((unit []).params.stackCapacity : Int) ≤ (withStack (unit []) 4 []).stackSize.toInt) ∧
    (0 < (sample []).stackSize.toInt ∧ (unit []).stackSize.toInt = 0) := by
  refine ⟨inv_of_soundB (by decide), by decide, by decide, ⟨by decide, fun k hk _ => ?_⟩, by decide, by decide, by decide⟩
  have : (sample []).params.stackLimit = 11 := by decide
  exact Memory.readWord_writeWord_ne _ _ (by omega)
theorem witness_StepKeepsTheInvariant : ∃ t, (unit [17, 0]).Inv ∧ step (unit [17, 0]) = .next t :=
  ⟨_, inv_of_soundB (by decide), rfl⟩
/-- A session from no unit (no state to be sound) and one from a sound unit. -/
theorem witness_EverySessionKeepsTheInvariant :
    ((∀ s : State, (none : Option State) = some s → s.Inv) ∧
      ∃ u replies, session none [.create [1] geometry Ports.atReset, .step] = .next (u, replies)) ∧
    ((∀ s : State, some (unit []) = some s → s.Inv) ∧
      ∃ u replies, session (some (unit [])) [.step, .reset, .peek 'I'] = .next (u, replies)) :=
  ⟨⟨by simp, _, _, rfl⟩, fun _ h => Option.some.inj h ▸ inv_unit, _, _, rfl⟩
theorem witness_SoundStepNeverFaults :
    ((unit [5, 1]).Inv ∧ ¬(unit [5, 1]).overflowingDiv) ∧
    ({ unit [5, 1] with a := 0x80000000, b := -1 } : State).Inv ∧
      ({ unit [5, 1] with a := 0x80000000, b := -1 } : State).overflowingDiv :=
  ⟨⟨inv_of_soundB (by decide), fun h => absurd h.2.2.1 (by decide)⟩, inv_of_soundB (by decide), by decide, by decide,
    by decide, 1, .B, by rfl, by rfl, by decide⟩
theorem witness_ParametersNeverChange :
    completes (.push 0) (unit []) = true ∧ (∃ t, step (unit [17, 0]) = .next t) ∧
      ∃ t n, run 2 (unit [17, 0, 1]) = .next (t, n) := ⟨by decide, ⟨_, rfl⟩, _, _, rfl⟩
/-- Writing a byte and then what it was gives a memory with the same reads. -/
theorem witness_CanonicalMemoryIsDeterminedByItsReads :
    let m : Memory := [(3, 7), (9, 1)]
    m.wf ∧ ((m.writeByte 5 4).writeByte 5 0).wf ∧
      ∀ a : Nat, m.readByte a = ((m.writeByte 5 4).writeByte 5 0).readByte a := by
  refine ⟨by decide, by decide, fun a => ?_⟩
  rw [show (Memory.writeByte (Memory.writeByte [(3, 7), (9, 1)] 5 4) 5 0) = [(3, 7), (9, 1)] by decide]
/-- The zeroed words are 11 to 15; bytes 43 and 64 lie just outside them. -/
theorem witness_ResetZeroesRegistersAndStack :
    (∀ k ∈ [(11 : Nat), 15], (unit []).params.stackLimit ≤ k ∧ (k : Int) ≤ (unit []).params.stackBottom) ∧
    (((43 : Nat) : Int) < 4 * (unit []).params.stackLimit ∧ 4 * ((unit []).params.stackBottom + 1) ≤ ((64 : Nat) : Int)) := by
  decide
theorem witness_ResetAfterAnySessionRestoresTheBaseline :
    (unit [17, 0]).Inv ∧ (∀ req ∈ [Request.step, .reset, .step], req ≠ .destroy) ∧
      ∃ t replies, session (some (unit [17, 0])) [.step, .reset, .step] = .next (some t, replies) :=
  ⟨inv_of_soundB (by decide), by decide, _, _, rfl⟩
theorem witness_StoppedUnitStaysStoppedUntilReset :
    ({ unit [] with status := .divByZero } : State).status ≠ .ok ∧
    (∀ req ∈ [Request.step, .status, .peek 'A'], req = .step ∨ req = .status ∨ ∃ name, req = .peek name) ∧
    (∀ k ∈ [(12 : Nat), 15], (unit []).params.stackLimit < k ∧ (k : Int) ≤ (unit []).params.stackBottom) ∧
    ((10 : Nat) : Int) < (unit []).params.stackLimit := by
  refine ⟨by decide, ?_, by decide, by decide⟩
  intro req h
  simp only [List.mem_cons, List.not_mem_nil, or_false] at h
  rcases h with rfl | rfl | rfl
  · exact .inl rfl
  · exact .inr (.inl rfl)
  · exact .inr (.inr ⟨_, rfl⟩)
/-- An image that fills every word below `stackLimit`; a stack that is one word too big; an image one word too long. -/
theorem witness_CreateWiresTheImageAndResets :
    (geometry.wellFormed ∧ ((List.replicate 11 (0 : Word)).length : Int) ≤ geometry.stackLimit) ∧
    ¬({ geometry with stackCapacity := 16 } : Params).wellFormed ∧
    geometry.stackLimit < ((List.replicate 12 (0 : Word)).length : Int) := by decide
theorem witness_UncreatedUnitRefusesAllButCreate :
    (∀ image params ports, Request.reset ≠ .create image params ports) ∧
      ∃ s, create [1] geometry Ports.atReset = .next s := ⟨by simp, _, rfl⟩
theorem witness_PeekAndStatusReadWithoutEffect : 'a' ∉ ['A', 'B', 'C', 'D', 'S', 'I'] := by decide
/-- V20 with a budget of 2, and V2 with the same budget: the run ends with its budget, and before it. -/
theorem witness_RunCountsStepsToTheFirstTerminalStatus :
    (0 : Int) ≤ 0 ∧ (0 : Int) < 2 ∧ (∃ t, run 2 (unit []) = .next (t, 2)) ∧ (∃ t, run 2 (unit [1]) = .next (t, 1)) ∧
      ∃ u, core.run 1 (unit []) = .next u ∧ u.status = .ok := ⟨by decide, by decide, ⟨_, rfl⟩, ⟨_, rfl⟩, _, rfl, by decide⟩
theorem witness_BadSelectorSetsIllegalOperand :
    (∃ w ∈ selectorWords (.add 4), ¬(0 ≤ w.toInt ∧ w.toInt ≤ 3)) ∧
    (∃ w ∈ selectorWords (.swap 0 (-1)), ¬(0 ≤ w.toInt ∧ w.toInt ≤ 3)) ∧ selected 3 = some .D :=
  ⟨⟨4, List.mem_cons_self, by decide⟩, ⟨-1, List.mem_cons_of_mem _ List.mem_cons_self, by decide⟩, by decide⟩
theorem witness_RegistersAreIndependent : Reg.B ≠ Reg.A := by decide
/-- A form that stores nothing, and `push` at slot 14 with the bytes 55 and 60 just outside it. -/
theorem witness_InstructionsStoreOnlyToTheirSlot :
    (completes (.add 1) (unit []) = true ∧ storeSlot (unit []) (.add 1) = none) ∧
    completes (.push 0) (sample []) = true ∧ storeSlot (sample []) (.push 0) = some 14 ∧
      ∀ a ∈ [(55 : Nat), 60], ¬(4 * (14 : Int) ≤ a ∧ (a : Int) < 4 * 14 + 4) := by decide
theorem witness_OnlyDestinationRegistersChange :
    completes (.movr 1 5) (unit []) = true ∧ ¬mayWriteReg (.movr 1 5) .A := by
  refine ⟨by decide, ?_⟩
  show ¬((1 : Word) = 0)
  decide
/-- For each special register an instruction that changes it; for the free draws, `in` with no answer listed. -/
theorem witness_SpecialRegistersChangeOnlyWhereNamed :
    (∃ t, exec (.push 0) (unit []) = .next t ∧ t.stackSize ≠ (unit []).stackSize) ∧
    (∃ t, exec (.cmp 0 1) { unit [] with a := 1 } = .next t ∧ t.result ≠ 0) ∧
    (∃ t, exec (.out 0) (unit []) = .next t ∧ t.ports.output ≠ []) ∧
    (∃ t, exec (.inp 0) { unit [] with ports := { Ports.atReset with intAnswers := [.value 1] } } = .next t ∧
      t.ports.intAnswers ≠ [.value 1]) ∧
    (∃ t, exec (.get 0) { unit [] with ports := { Ports.atReset with charAnswers := [.value 1] } } = .next t ∧
      t.ports.charAnswers ≠ [.value 1]) ∧
    ∃ t, exec (.inp 0) (unit []) = .next t ∧ t.ports.draws ≠ 0 := by
  refine ⟨⟨_, rfl, by decide⟩, ⟨_, rfl, by decide⟩, ⟨_, rfl, by decide⟩, ⟨_, rfl, by decide⟩, ⟨_, rfl, by decide⟩, ?_⟩
  have h : exec (.inp Reg.A.selector) (unit []) =
      .next ((receive .A (Config.intAnswer 0) { unit [] with ports := { Ports.atReset with draws := 1 } }).commit 2) := by
    rw [exec, execInp, withReg_selector]; rfl
  refine ⟨_, h, ?_⟩
  cases Config.intAnswer 0 <;> simp [Ports.atReset]
/-- `nop` at index 10, the last below `stackLimit`; an all-zero unit. -/
theorem witness_NopOnlyAdvancesIp :
    (let s := { unit [] with ip := 10 }
     s.status = .ok ∧ s.ipInRange ∧ s.mem.readWord s.ip.toInt.toNat = 0) ∧
    (unit []).params.wellFormed ∧ (unit []).status = .ok ∧ 0 ≤ (unit []).ip.toInt ∧
      (unit []).ip.toInt ≤ (unit []).params.stackLimit ∧
      ∀ k : Nat, (unit []).ip.toInt ≤ k → (k : Int) < (unit []).params.stackLimit → (unit []).mem.readWord k = 0 :=
  ⟨by decide, by decide, by decide, by decide, by decide, fun _ _ _ => Memory.readWord_empty _⟩
theorem witness_HaltSetsHalted :
    (unit []).params.haltIpAdvance = 0 ∧ ({ geometry with haltIpAdvance := 1 } : Params).haltIpAdvance = 1 := by decide
/-- The exact results 2^31 − 1, −2^31 and 2^31 − 1 (`mul` of 2147483647 and 1): the ends of the range. -/
theorem witness_AddSubMulWrapIntoA :
    (let s := { unit [] with a := 2147483646, b := 1 }
     Instr.add 1 = .add Reg.B.selector ∧ s.a.toInt + (s.reg .B).toInt = 2147483647) ∧
    (let s := { unit [] with a := 0x80000001, b := 1 }
     Instr.sub 1 = .sub Reg.B.selector ∧ s.a.toInt - (s.reg .B).toInt = -2147483648) ∧
    (let s := { unit [] with a := 2147483647, b := 1 }
     Instr.mul 1 = .mul Reg.B.selector ∧ s.a.toInt * (s.reg .B).toInt = 2147483647) := by decide
theorem witness_DivRoundsTowardZero :
    let s := { unit [] with a := 0x80000000, b := 1 }
    (s.reg .B).toInt ≠ 0 ∧ ¬(s.a.toInt = -2147483648 ∧ (s.reg .B).toInt = -1) := by decide
theorem witness_DivByZeroLeavesAUnmodified : ((unit []).reg .B).toInt = 0 := by decide
theorem witness_DivOverflowFollowsTheParameter :
    (let s := { unit [] with a := 0x80000000, b := -1 }
     s.a.toInt = -2147483648 ∧ (s.reg .B).toInt = -1 ∧ s.params.divOverflow = .refuse) ∧
    (let s := { unit [] with a := 0x80000000, b := -1, params := { geometry with divOverflow := .wrap } }
     s.a.toInt = -2147483648 ∧ (s.reg .B).toInt = -1 ∧ s.params.divOverflow = .wrap) := by decide
theorem witness_MovrLoadsTheImmediate : 3 < (4 : Word).toNat ∧ completes (.movr Reg.D.selector 5) (unit []) = true := by decide
theorem witness_SwapExchangesTwoRegisters :
    (Reg.B ≠ Reg.A ∧ Reg.B ≠ Reg.D) ∧ (3 < (4 : Word).toNat ∨ 3 < (0 : Word).toNat) ∧
      (3 < (0 : Word).toNat ∨ 3 < (-1 : Word).toNat) := by decide
/-- Slots 12 and 15, the ends of the stack region. -/
theorem witness_LoadReadsTheFrameSlot :
    ∀ p ∈ [((-3 : Word), (12 : Int)), (0, 15)],
      (sample []).params.wellFormed ∧
      p.2 = (sample []).params.stackBottom - (sample []).stackSize.toInt + (sample []).d.toInt + p.1.toInt + 1 ∧
      (sample []).params.stackLimit < p.2 ∧ p.2 ≤ (sample []).params.stackBottom := by decide
theorem witness_StoreWritesTheFrameSlot :
    ∀ p ∈ [((-3 : Word), (12 : Int)), (0, 15)],
      (sample []).params.wellFormed ∧ (sample []).mem.wf ∧
      p.2 = (sample []).params.stackBottom - (sample []).stackSize.toInt + (sample []).d.toInt + p.1.toInt + 1 ∧
      (sample []).params.stackLimit < p.2 ∧ p.2 ≤ (sample []).params.stackBottom := by decide
/-- Slots 11 and 16, just outside the stack region. -/
theorem witness_FrameSlotOutsideTheStackFails :
    ∀ p ∈ [((-4 : Word), (11 : Int)), (1, 16)],
      p.2 = (sample []).params.stackBottom - (sample []).stackSize.toInt + (sample []).d.toInt + p.1.toInt + 1 ∧
      (p.2 ≤ (sample []).params.stackLimit ∨ (sample []).params.stackBottom < p.2) := by decide
/-- An empty stack, one with one slot left, a full one, and one of capacity 0. -/
theorem witness_PushWritesTheNextFreeSlot :
    ((unit []).Inv ∧ (unit []).stackSize.toInt < (unit []).params.stackCapacity ∧ (unit []).stackSize.toInt = 0) ∧
    ((withStack (unit []) 3 []).Inv ∧
      (withStack (unit []) 3 []).stackSize.toInt = (withStack (unit []) 3 []).params.stackCapacity - 1) ∧
    ((withStack (unit []) 4 []).params.stackCapacity : Int) ≤ (withStack (unit []) 4 []).stackSize.toInt ∧
    (({ unit [] with params := { geometry with stackCapacity := 0 } } : State).Inv ∧
      ({ unit [] with params := { geometry with stackCapacity := 0 } } : State).params.stackCapacity = 0) ∧
    3 < (4 : Word).toNat :=
  ⟨⟨inv_unit, by decide, by decide⟩, ⟨inv_of_soundB (by decide), by decide⟩, by decide,
    ⟨inv_of_soundB (by decide), by decide⟩, by decide⟩
theorem witness_PopReadsTheTopWord :
    ((sample []).Inv ∧ 0 < (sample []).stackSize.toInt) ∧ (unit []).stackSize.toInt = 0 :=
  ⟨⟨inv_of_soundB (by decide), by decide⟩, by decide⟩
theorem witness_PushThenPopIsARoundTrip :
    (withStack (unit []) 3 []).Inv ∧
      (withStack (unit []) 3 []).stackSize.toInt < (withStack (unit []) 3 []).params.stackCapacity ∧ Reg.B ≠ Reg.A :=
  ⟨inv_of_soundB (by decide), by decide, by decide⟩
/-- Each of the three answers, listed; and a free answer where none is listed. -/
theorem witness_InDeliversTheHostsAnswer :
    (∀ ans : InputAnswer Word, ∃ rest, ({ Ports.atReset with intAnswers := [ans] } : Ports).intAnswers = ans :: rest) ∧
    (unit []).ports.intAnswers = [] ∧
    (InputAnswer.value (-12 : Word) = .value (-12) ∧ (InputAnswer.endOfInput : InputAnswer Word) = .endOfInput ∧
      (InputAnswer.malformed : InputAnswer Word) = .malformed) := ⟨fun _ => ⟨[], rfl⟩, rfl, rfl, rfl, rfl⟩
theorem witness_GetDeliversOneCharacter :
    (∀ ans : InputAnswer Byte, ∃ rest, ({ Ports.atReset with charAnswers := [ans] } : Ports).charAnswers = ans :: rest) ∧
    (unit []).ports.charAnswers = [] ∧
    (InputAnswer.value (255 : Byte) = .value 255 ∧ (InputAnswer.endOfInput : InputAnswer Byte) = .endOfInput ∧
      (InputAnswer.malformed : InputAnswer Byte) = .malformed) := ⟨fun _ => ⟨[], rfl⟩, rfl, rfl, rfl, rfl⟩
/-- 0 and 254, and −1 and 255. -/
theorem witness_PutEmitsOneByteUpTo254 :
    (0 ≤ ((unit []).reg .B).toInt ∧ ((unit []).reg .B).toInt ≤ 254) ∧
    (let s := { unit [] with b := 254 }
     0 ≤ (s.reg .B).toInt ∧ (s.reg .B).toInt ≤ 254) ∧
    (let s := { unit [] with b := -1 }
     (s.reg .B).toInt < 0 ∨ 254 < (s.reg .B).toInt) ∧
    (let s := { unit [] with b := 255 }
     (s.reg .B).toInt < 0 ∨ 254 < (s.reg .B).toInt) := by decide
theorem witness_LoopJumpsWhileCIsNotZero :
    ({ unit [] with c := -1 } : State).c.toInt ≠ 0 ∧ (unit []).c.toInt = 0 := by decide
/-- A difference of 2^31 − 1 and one of −2^31. -/
theorem witness_CmpWritesTheDifference :
    (let s := { unit [] with a := 2147483646, b := -1 }
     (s.reg .A).toInt - (s.reg .B).toInt = 2147483647) ∧
    (let s := { unit [] with a := 0x80000001, b := 1 }
     (s.reg .A).toInt - (s.reg .B).toInt = -2147483648) := by decide
theorem witness_ConditionalJumpsTestTheResult :
    (∃ t, exec (.movr 0 5) (unit []) = .next t ∧ ∀ w1 w2 : Word, Instr.movr 0 5 ≠ .cmp w1 w2) ∧
    (let s := { unit [] with a := 2147483646, b := -1 }
     completes (.cmp Reg.A.selector Reg.B.selector) s = true ∧ -2147483648 ≤ (s.reg .A).toInt - (s.reg .B).toInt ∧
      (s.reg .A).toInt - (s.reg .B).toInt ≤ 2147483647) := ⟨⟨_, rfl, by simp⟩, by decide⟩
/-- V138: the return address is `stackLimit`; and a full stack. -/
theorem witness_CallPushesTheReturnAddress :
    (let s := { unit [] with ip := 9 }
     s.Inv ∧ s.stackSize.toInt < s.params.stackCapacity ∧ 0 ≤ s.ip.toInt ∧ s.ip.toInt + 2 = s.params.stackLimit ∧
      s.status = .ok) ∧
    ((withStack (unit []) 4 []).params.stackCapacity : Int) ≤ (withStack (unit []) 4 []).stackSize.toInt :=
  ⟨⟨inv_of_soundB (by decide), by decide, by decide, by decide, by decide⟩, by decide⟩
/-- V142 with the target 11, the first outside `[0, stackLimit)`; and an empty stack. -/
theorem witness_RetJumpsToTheTopWordAndZeroesIt :
    (let s := withStack (unit []) 1 [0, 0, 0, 11]
     s.Inv ∧ 0 < s.stackSize.toInt ∧ s.status = .ok ∧ ∃ t, exec .ret s = .next t ∧
      ¬(0 ≤ t.ip.toInt ∧ t.ip.toInt < s.params.stackLimit)) ∧
    (unit []).stackSize.toInt = 0 :=
  ⟨⟨inv_of_soundB (by decide), by decide, by decide, _, rfl, by decide⟩, by decide⟩
theorem witness_CallThenRetReturns :
    (unit []).Inv ∧ (unit []).stackSize.toInt < (unit []).params.stackCapacity := ⟨inv_unit, by decide⟩

end Sys2Proof.Tests
end

section
/-! PROOF. Register selectors (spec/10_state.md R11): which words name a register, as signed integers, and what every
instruction does with a word that names none. -/

namespace Sys2Proof.Machine

/-! ## Selector words as signed integers -/

/-- The selector of each register, by its signed value. -/
theorem eq_selector_iff_toInt {w : Word} {r : Reg} : w = r.selector ↔
    (w.toInt = 0 ∧ r = .A) ∨ (w.toInt = 1 ∧ r = .B) ∨ (w.toInt = 2 ∧ r = .C) ∨ (w.toInt = 3 ∧ r = .D) := by
  rw [← BitVec.toInt_inj]
  cases r <;> simp [Reg.selector]

/-- The signed range 0 .. 3 and the unsigned bound of `selected_eq_none` exclude the same words: a negative word is a large
unsigned one. -/
theorem not_selector_range_iff {w : Word} : ¬(0 ≤ w.toInt ∧ w.toInt ≤ 3) ↔ 3 < w.toNat := by
  have hlt := w.isLt
  rw [BitVec.toInt_eq_toNat_cond]
  split_ifs <;> omega

/-! ## A handler behind one or two selector checks -/

section
variable {len : Nat} {w w1 w2 : Word} {s : State}

theorem dispatch_withReg_bad {rest : Reg → Handler} (hw : 3 < w.toNat) :
    dispatch len (withReg w s rest) = .next (s.fail .illegalOperand) := by
  rw [withReg_bad hw, dispatch_raise]

/-- The check of a second selector fails in the same state as the check of the first, whether or not the first passes. -/
theorem dispatch_withReg_withReg_bad {rest : Reg → Reg → Handler} (hw : 3 < w1.toNat ∨ 3 < w2.toNat) :
    dispatch len (withReg w1 s fun r1 => withReg w2 s (rest r1)) = .next (s.fail .illegalOperand) := by
  rcases withReg_cases w1 s fun r1 => withReg w2 s (rest r1) with ⟨r1, rfl, -⟩ | ⟨h1, -⟩
  · have h2 : 3 < w2.toNat := hw.resolve_left (by cases r1 <;> decide)
    rw [withReg_selector, dispatch_withReg_bad h2]
  · exact dispatch_withReg_bad h1

end

/-- Every handler checks its selectors before anything else, so a bad one leaves the taken exception and nothing more. -/
theorem exec_bad_selector {i : Instr} {w : Word} (s : State) (hmem : w ∈ selectorWords i) (hw : 3 < w.toNat) :
    exec i s = .next (s.fail .illegalOperand) := by
  cases i
  case nop | halt | ret | loop | jmp | jz | jnz | jgt | call => exact absurd hmem List.not_mem_nil
  case swap | cmp =>
    refine dispatch_withReg_withReg_bad ?_
    rcases List.mem_pair.1 hmem with rfl | rfl
    · exact .inl hw
    · exact .inr hw
  all_goals
    obtain rfl := List.mem_singleton.1 hmem
    exact dispatch_withReg_bad hw

/-- Settles O28: `selected` by `selected_eq_some`, and the bad selectors by `exec_bad_selector`. -/
theorem badSelectorSetsIllegalOperand : Obligations.BadSelectorSetsIllegalOperand := by
  unfold Obligations.BadSelectorSetsIllegalOperand
  refine ⟨fun w r => (selected_eq_some r).trans eq_selector_iff_toInt, ?_⟩
  rintro i s ⟨w, hmem, hbad⟩
  exact exec_bad_selector s hmem (not_selector_range_iff.1 hbad)

end Sys2Proof.Machine
end

section
/-! PROOF. Instruction fetch and Memory (spec/20_memory.md R34): a fetch is a function of the words below `stackLimit`, and the
instruction it answers lies there. -/

namespace Sys2Proof

/-! ## What a row of the instruction table reads -/

/-- A row reads only the words of its own instruction. -/
theorem Row.fill_congr {row : Row} {f g : Nat → Word} (h : ∀ k < row.length, f k = g k) : row.fill f = row.fill g := by
  cases row with
  | zero i => rfl
  | one mk => exact congrArg mk (h 1 (by simp [Row.length, Row.operands]))
  | two mk => exact congrArg₂ mk (h 1 (by simp [Row.length, Row.operands])) (h 2 (by simp [Row.length, Row.operands]))

/-- The instruction a row of the table makes has the row's length (spec/30_encoding.md R50, R53). -/
theorem opcodeRow_fill_length {n : Nat} {row : Row} (h : opcodeRow n = some row) (word : Nat → Word) :
    (row.fill word).length = row.length := by
  unfold opcodeRow at h
  split at h <;> cases h <;> rfl

end Sys2Proof

namespace Sys2Proof.Machine

/-! ## Fetch -/

/-- Two units that differ in Memory only fetch alike when the words from `IP` to `stackLimit` are the same: each word is read
behind the check that it lies below `stackLimit`. -/
theorem fetch_congr_mem {s : State} {m : Memory} (hw : s.ipInRange → ∀ k : Nat, s.ip.toInt + k < s.params.stackLimit →
      ({ s with mem := m } : State).codeWord k = s.codeWord k) :
    fetch { s with mem := m } = fetch s := by
  unfold fetch
  by_cases hr : s.ipInRange
  · rw [if_pos hr, if_pos hr, hw hr 0 (by simpa using hr.2)]
    cases lookup s.params.isaConfig (s.codeWord 0) with
    | none => rfl
    | some row =>
      by_cases hfit : s.ip.toInt + row.length ≤ s.params.stackLimit
      · have hfill : row.fill ({ s with mem := m } : State).codeWord = row.fill s.codeWord :=
          Row.fill_congr fun k hk => hw hr k (by omega)
        simp only [if_pos hfit, hfill]
      · simp only [if_neg hfit]
  · rw [if_neg hr, if_neg hr]

/-- A fetched instruction lies whole in `[0, stackLimit)`. -/
theorem fetch_ok_bounds {s : State} {i : Instr} (h : fetch s = .ok i) :
    s.ipInRange ∧ s.ip.toInt + i.length ≤ s.params.stackLimit := by
  obtain ⟨hr, row, hrow, hfit, rfl⟩ := fetch_eq_ok.1 h
  rw [opcodeRow_fill_length (lookup_eq_some.1 hrow).2]
  exact ⟨hr, hfit⟩

/-- Settles O13: the words a fetch reads by `fetch_congr_mem`, the range of what it answers by `fetch_ok_bounds`. -/
theorem fetchReadsOnlyWordsBelowStackLimit : Obligations.FetchReadsOnlyWordsBelowStackLimit := by
  unfold Obligations.FetchReadsOnlyWordsBelowStackLimit
  refine ⟨fun s m hm => fetch_congr_mem fun hr k hk => hm (s.ip.toInt.toNat + k) ?_, fun s i h => ?_⟩
  · have hpos := hr.1
    omega
  · obtain ⟨⟨h0, h1⟩, hfit⟩ := fetch_ok_bounds h
    exact ⟨h0, h1, by omega⟩

end Sys2Proof.Machine
end

section
/-! PROOF. Data accesses of instructions (spec/20_memory.md R35): what an instruction may do to Memory, when a stack access
fails, and two units that differ only outside the stack region doing the same. -/

namespace Sys2Proof.Machine

variable {s t : State} {m m' : Memory} {p : Params}

/-! ## The stack slots of a sound state are valid -/

theorem State.Inv.slotValid_freeSlot (hi : s.Inv) (h : s.stackSize.toInt < s.params.stackCapacity) :
    s.slotValid s.freeSlot := by
  obtain ⟨hlo, hhi, -⟩ := State.freeSlot_bounds hi h
  exact ⟨hlo, hhi⟩

theorem State.Inv.slotValid_topSlot (hi : s.Inv) (h : s.stackSize ≠ 0) : s.slotValid s.topSlot := by
  obtain ⟨hlo, hhi, -⟩ := State.topSlot_bounds hi h
  exact ⟨hlo, hhi⟩

/-! ## What an instruction does to Memory -/

/-- An instruction leaves Memory alone or writes one word, at its store slot; that slot of a sound state is in the stack
region. -/
theorem exec_mem_cases {i : Instr} (h : exec i s = .next t) :
    t.mem = s.mem ∨ ∃ slot v, storeSlot s i = some slot ∧ (0 ≤ slot ∧ slot < s.params.memWords) ∧
      (s.Inv → s.slotValid slot) ∧ t.mem = s.mem.writeWord slot.toNat v := by
  rcases exec_cases h with ⟨w, -, -, rfl⟩ | he
  · exact .inl rfl
  cases i
  case nop | halt | loop | jmp | jz | jnz | jgt =>
    obtain rfl : t = _ := he
    exact .inl rfl
  case add | sub | mul | inc | dec | movr | out =>
    obtain ⟨r, -, rfl⟩ := he
    exact .inl (by simp)
  case swap | cmp =>
    obtain ⟨r1, r2, -, -, rfl⟩ := he
    exact .inl (by simp)
  case div => obtain ⟨r, -, ⟨-, rfl⟩ | ⟨-, -, -, rfl⟩ | ⟨-, -, rfl⟩⟩ := he <;> exact .inl rfl
  case put => obtain ⟨r, -, ⟨-, rfl⟩ | ⟨-, rfl⟩⟩ := he <;> exact .inl rfl
  case load | pop => obtain ⟨r, -, ⟨-, rfl⟩ | ⟨-, -, rfl⟩⟩ := he <;> exact .inl (by simp)
  case inp =>
    obtain ⟨r, -, rfl⟩ := he
    cases s.ports.inInt.1 <;> exact .inl (by simp)
  case get =>
    obtain ⟨r, -, rfl⟩ := he
    cases charAsWord s.ports.inChar.1 <;> exact .inl (by simp)
  case store =>
    obtain ⟨r, -, ⟨-, rfl⟩ | ⟨hv, hin, rfl⟩⟩ := he
    · exact .inl rfl
    · exact .inr ⟨_, _, rfl, hin, fun _ => hv, rfl⟩
  case push =>
    obtain ⟨r, -, ⟨-, rfl⟩ | ⟨hroom, hin, rfl⟩⟩ := he
    · exact .inl rfl
    · exact .inr ⟨_, _, rfl, hin, fun hi => hi.slotValid_freeSlot hroom, rfl⟩
  case call =>
    obtain ⟨-, rfl⟩ | ⟨hroom, hin, rfl⟩ := he
    · exact .inl rfl
    · exact .inr ⟨_, _, rfl, hin, fun hi => hi.slotValid_freeSlot hroom, rfl⟩
  case ret =>
    obtain ⟨-, rfl⟩ | ⟨hne, hin, rfl⟩ := he
    · exact .inl rfl
    · exact .inr ⟨_, _, rfl, hin, fun hi => hi.slotValid_topSlot hne, rfl⟩

/-! ## Two units that differ outside the stack region only -/

/-- The two memories hold the same words in the stack region. -/
def AgreeOnStack (p : Params) (m m' : Memory) : Prop :=
  ∀ k : Nat, p.stackLimit < k → (k : Int) ≤ p.stackBottom → m'.readWord k = m.readWord k

theorem AgreeOnStack.writeWord (h : AgreeOnStack p m m') (hwf : m.wf) (hwf' : m'.wf) (i : Nat) (v : Word) :
    AgreeOnStack p (m.writeWord i v) (m'.writeWord i v) := by
  intro k hlo hhi
  by_cases hk : k = i
  · subst hk
    rw [Memory.readWord_writeWord_same _ _ _ hwf, Memory.readWord_writeWord_same _ _ _ hwf']
  · rw [Memory.readWord_writeWord_ne _ _ hk, Memory.readWord_writeWord_ne _ _ hk, h k hlo hhi]

/-- The unit `s`, of parameters `p`, and the same unit with the memory `m` are twins: the two memories are canonical and agree
on the stack region. -/
structure TwinMemory (p : Params) (s : State) (m : Memory) : Prop where
  params_eq : s.params = p
  wf : s.mem.wf
  wf' : m.wf
  agree : AgreeOnStack p s.mem m

/-- Whenever the first handler ends, so does the second, with the same signal and in a twin state. -/
def HandlerTwin (p : Params) (H H' : Handler) : Prop :=
  ∀ hd, H = .next hd → ∃ m, H' = .next ⟨hd.signal, { hd.state with mem := m }⟩ ∧ TwinMemory p hd.state m

/-- Whenever the first step has a next state, so does the second, and it is a twin. -/
def OutcomeTwin (p : Params) (O O' : Host.Outcome State Fault Refusal) : Prop :=
  ∀ t, O = .next t → ∃ m, O' = .next { t with mem := m } ∧ TwinMemory p t m

namespace TwinMemory

/-- A change of other fields than Memory and the parameters keeps the twin. -/
theorem update (h : TwinMemory p s m) (hmem : t.mem = s.mem := by rfl) (hp : t.params = s.params := by rfl) :
    TwinMemory p t m :=
  ⟨hp.trans h.params_eq, hmem ▸ h.wf, h.wf', hmem ▸ h.agree⟩

theorem setReg (h : TwinMemory p s m) (r : Reg) (v : Word) : TwinMemory p (s.setReg r v) m :=
  h.update (State.setReg_mem ..) (State.setReg_params ..)

theorem writeWord (h : TwinMemory p s m) (i : Nat) (v : Word) :
    TwinMemory p { s with mem := s.mem.writeWord i v } (m.writeWord i v) :=
  ⟨h.params_eq, Memory.writeWord_wf _ _ _ h.wf, Memory.writeWord_wf _ _ _ h.wf', h.agree.writeWord h.wf h.wf' i v⟩

/-- A slot in the stack region holds the same word in both. -/
theorem readWord_eq {slot : Int} (h : TwinMemory p s m) (h0 : 0 ≤ slot) (hv : s.slotValid slot) :
    m.readWord slot.toNat = s.mem.readWord slot.toNat := by
  obtain ⟨hlo, hhi⟩ := hv
  rw [h.params_eq] at hlo hhi
  exact h.agree slot.toNat (by omega) (by omega)

end TwinMemory

theorem State.setReg_withMem (s : State) (m : Memory) (r : Reg) (v : Word) :
    ({ s with mem := m } : State).setReg r v = { s.setReg r v with mem := m } := by
  cases r <;> rfl

/-! ## The shared operations keep twins twins -/

theorem outcomeTwin_dispatch {H H' : Handler} (len : Nat) (h : HandlerTwin p H H') :
    OutcomeTwin p (dispatch len H) (dispatch len H') := by
  intro t ht
  obtain ⟨⟨signal, s⟩, hH, rfl⟩ := dispatch_eq_next.1 ht
  obtain ⟨m, hH', htwin⟩ := h _ hH
  rw [hH', dispatch_next]
  cases signal with
  | fail | jumped => exact ⟨m, rfl, htwin⟩
  | next => exact ⟨m, rfl, htwin.update⟩

theorem handlerTwin_next (h : TwinMemory p s m) (signal : Signal) :
    HandlerTwin p (.next ⟨signal, s⟩) (.next ⟨signal, { s with mem := m }⟩) := by
  rintro hd ⟨rfl⟩
  exact ⟨m, rfl, h⟩

theorem handlerTwin_proceed (h : TwinMemory p s m) : HandlerTwin p (proceed s) (proceed { s with mem := m }) :=
  handlerTwin_next h .next

theorem handlerTwin_proceed_setReg (h : TwinMemory p s m) (r : Reg) (v : Word) :
    HandlerTwin p (proceed (s.setReg r v)) (proceed (({ s with mem := m } : State).setReg r v)) := by
  rw [State.setReg_withMem s m]
  exact handlerTwin_proceed (h.setReg r v)

theorem handlerTwin_raise (h : TwinMemory p s m) (st : Status) :
    HandlerTwin p (raise st s) (raise st { s with mem := m }) :=
  handlerTwin_next (s := s.fail st) h.update .fail

theorem handlerTwin_jumpTo (h : TwinMemory p s m) (target : Word) :
    HandlerTwin p (jumpTo target s) (jumpTo target { s with mem := m }) :=
  handlerTwin_next (s := { s with ip := target }) h.update .jumped

/-- A fault ends no handler. -/
theorem handlerTwin_fault (f : Fault) (H : Handler) : HandlerTwin p (.fault f) H := nofun

/-- A check that both make on what they share goes the same way in both. -/
theorem handlerTwin_ite {c : Prop} [Decidable c] {H₁ H₁' H₂ H₂' : Handler} (h₁ : c → HandlerTwin p H₁ H₁')
    (h₂ : ¬c → HandlerTwin p H₂ H₂') : HandlerTwin p (if c then H₁ else H₂) (if c then H₁' else H₂') := by
  by_cases hc : c
  · rw [if_pos hc, if_pos hc]
    exact h₁ hc
  · rw [if_neg hc, if_neg hc]
    exact h₂ hc

theorem handlerTwin_branchIf (h : TwinMemory p s m) (taken : Bool) (target : Word) :
    HandlerTwin p (branchIf taken target s) (branchIf taken target { s with mem := m }) :=
  handlerTwin_ite (fun _ => handlerTwin_jumpTo h target) fun _ => handlerTwin_proceed h

theorem handlerTwin_receive (h : TwinMemory p s m) (r : Reg) (ans : InputAnswer Word) :
    HandlerTwin p (.next (receive r ans s)) (.next (receive r ans { s with mem := m })) := by
  cases ans with
  | value v => exact handlerTwin_proceed_setReg h r v
  | endOfInput =>
    rw [receive_endOfInput, receive_endOfInput, State.setReg_withMem s m]
    exact handlerTwin_proceed_setReg (h.setReg .C 0) r (-1)
  | malformed => exact handlerTwin_raise h .ioError

theorem handlerTwin_divideA (h : TwinMemory p s m) (v : Word) :
    HandlerTwin p (divideA v s) (divideA v { s with mem := m }) := by
  intro hd hdiv
  rcases divideA_eq_next.1 hdiv with ⟨h0, rfl⟩ | ⟨h0, hover, hwrap, rfl⟩ | ⟨h0, hover, rfl⟩
  · exact ⟨m, divideA_zero h0, h.update⟩
  · exact ⟨m, divideA_wrap hover hwrap, h.update⟩
  · exact ⟨m, divideA_quotient h0 hover, h.update⟩

theorem handlerTwin_withReg {rest rest' : Reg → Handler} (h : TwinMemory p s m) (w : Word)
    (hrest : ∀ r, HandlerTwin p (rest r) (rest' r)) :
    HandlerTwin p (withReg w s rest) (withReg w { s with mem := m } rest') := by
  unfold withReg
  cases selected w with
  | some r => exact hrest r
  | none => exact handlerTwin_raise h .illegalOperand

theorem handlerTwin_withFrameSlot {rest rest' : Int → Handler} (h : TwinMemory p s m) (offset : Word)
    (hrest : ∀ slot, s.slotValid slot → HandlerTwin p (rest slot) (rest' slot)) :
    HandlerTwin p (withFrameSlot offset s rest) (withFrameSlot offset { s with mem := m } rest') :=
  handlerTwin_ite (hrest _) fun _ => handlerTwin_raise h .invalidStackOperation

theorem handlerTwin_readThen {rest rest' : Word → Handler} {slot : Int} (h : TwinMemory p s m) (hv : s.slotValid slot)
    (hrest : ∀ v, HandlerTwin p (rest v) (rest' v)) :
    HandlerTwin p (readThen slot s rest) (readThen slot { s with mem := m } rest') := by
  refine handlerTwin_ite (fun hin => ?_) fun _ => handlerTwin_fault _ _
  rw [h.readWord_eq hin.1 hv]
  exact hrest _

theorem handlerTwin_writeThen {rest rest' : State → Handler} (h : TwinMemory p s m) (slot : Int) (v : Word)
    (hrest : ∀ s' m', TwinMemory p s' m' → HandlerTwin p (rest s') (rest' { s' with mem := m' })) :
    HandlerTwin p (writeThen slot v s rest) (writeThen slot v { s with mem := m } rest') :=
  handlerTwin_ite (fun _ => hrest _ _ (h.writeWord slot.toNat v)) fun _ => handlerTwin_fault _ _

theorem handlerTwin_pushThen {rest rest' : State → Handler} (h : TwinMemory p s m) (v : Word)
    (hrest : ∀ s' m', TwinMemory p s' m' → HandlerTwin p (rest s') (rest' { s' with mem := m' })) :
    HandlerTwin p (pushThen v s rest) (pushThen v { s with mem := m } rest') :=
  handlerTwin_ite (fun _ => handlerTwin_raise h .invalidStackOperation) fun _ =>
    handlerTwin_writeThen h _ v fun _ _ h' => hrest _ _ h'.update

/-! ## No instruction reads outside the stack region -/

/-- From twins, the first of them sound, an instruction goes to twins: every word it reads is in the stack region. -/
theorem outcomeTwin_exec (i : Instr) (hi : s.Inv) (h : TwinMemory p s m) :
    OutcomeTwin p (exec i s) (exec i { s with mem := m }) := by
  cases i with
  | nop => exact outcomeTwin_dispatch 1 (handlerTwin_jumpTo h _)
  | halt => exact outcomeTwin_dispatch 1 (handlerTwin_raise h.update .halted)
  | jmp x => exact outcomeTwin_dispatch 2 (handlerTwin_jumpTo h x)
  | loop x | jz x | jnz x | jgt x => exact outcomeTwin_dispatch 2 (handlerTwin_branchIf h _ x)
  | call x => exact outcomeTwin_dispatch 2 (handlerTwin_pushThen h _ fun _ _ h' => handlerTwin_jumpTo h' x)
  | ret =>
    exact outcomeTwin_dispatch 1 (handlerTwin_ite (fun _ => handlerTwin_raise h .invalidStackOperation) fun hne =>
      handlerTwin_readThen h (hi.slotValid_topSlot hne) fun v => handlerTwin_writeThen h _ 0 fun _ _ h' =>
        handlerTwin_jumpTo h'.update v)
  | swap w1 w2 =>
    refine outcomeTwin_dispatch 3 (handlerTwin_withReg h w1 fun r1 => handlerTwin_withReg h w2 fun r2 => ?_)
    rw [State.setReg_withMem s m]
    exact handlerTwin_proceed_setReg (h.setReg r1 _) r2 _
  | cmp w1 w2 =>
    exact outcomeTwin_dispatch 3 (handlerTwin_withReg h w1 fun r1 => handlerTwin_withReg h w2 fun r2 =>
      handlerTwin_proceed h.update)
  | add w | sub w | mul w | out w =>
    exact outcomeTwin_dispatch 2 (handlerTwin_withReg h w fun r => handlerTwin_proceed h.update)
  | div w => exact outcomeTwin_dispatch 2 (handlerTwin_withReg h w fun r => handlerTwin_divideA h _)
  | inc w | dec w =>
    exact outcomeTwin_dispatch 2 (handlerTwin_withReg h w fun r => handlerTwin_proceed_setReg h r _)
  | movr w v => exact outcomeTwin_dispatch 3 (handlerTwin_withReg h w fun r => handlerTwin_proceed_setReg h r v)
  | inp w | get w => exact outcomeTwin_dispatch 2 (handlerTwin_withReg h w fun r => handlerTwin_receive h.update r _)
  | put w =>
    exact outcomeTwin_dispatch 2 (handlerTwin_withReg h w fun r =>
      handlerTwin_ite (fun _ => handlerTwin_raise h .illegalOperand) fun _ => handlerTwin_proceed h.update)
  | load w o =>
    exact outcomeTwin_dispatch 3 (handlerTwin_withReg h w fun r => handlerTwin_withFrameSlot h o fun slot hv =>
      handlerTwin_readThen h hv fun v => handlerTwin_proceed_setReg h r v)
  | store w o =>
    exact outcomeTwin_dispatch 3 (handlerTwin_withReg h w fun r => handlerTwin_withFrameSlot h o fun slot _ =>
      handlerTwin_writeThen h slot _ fun _ _ => handlerTwin_proceed)
  | push w =>
    exact outcomeTwin_dispatch 2 (handlerTwin_withReg h w fun r =>
      handlerTwin_pushThen h _ fun _ _ => handlerTwin_proceed)
  | pop w =>
    refine outcomeTwin_dispatch 2 (handlerTwin_withReg h w fun r =>
      handlerTwin_ite (fun _ => handlerTwin_raise h .invalidStackOperation) fun hne =>
        handlerTwin_readThen h (hi.slotValid_topSlot hne) fun v => ?_)
    rw [State.setReg_withMem s m]
    exact handlerTwin_proceed (h.setReg r v).update

/-! ## Stack accesses that fail -/

theorem exec_load_outside (r : Reg) {offset : Word} (h : ¬s.slotValid (s.frameSlot offset)) :
    exec (.load r.selector offset) s = .next (s.fail .invalidStackOperation) := by
  rw [exec, execLoad, withReg_selector, withFrameSlot_invalid h, dispatch_raise]

theorem exec_store_outside (r : Reg) {offset : Word} (h : ¬s.slotValid (s.frameSlot offset)) :
    exec (.store r.selector offset) s = .next (s.fail .invalidStackOperation) := by
  rw [exec, execStore, withReg_selector, withFrameSlot_invalid h, dispatch_raise]

theorem exec_push_full (r : Reg) (h : (s.params.stackCapacity : Int) ≤ s.stackSize.toInt) :
    exec (.push r.selector) s = .next (s.fail .invalidStackOperation) := by
  rw [exec, execPush, withReg_selector, pushThen_full h, dispatch_raise]

theorem exec_call_full (index : Word) (h : (s.params.stackCapacity : Int) ≤ s.stackSize.toInt) :
    exec (.call index) s = .next (s.fail .invalidStackOperation) := by
  rw [exec, execCall, pushThen_full h, dispatch_raise]

theorem exec_pop_empty (r : Reg) (h : s.stackSize = 0) :
    exec (.pop r.selector) s = .next (s.fail .invalidStackOperation) := by
  rw [exec, execPop, withReg_selector, if_pos h, dispatch_raise]

theorem exec_ret_empty (h : s.stackSize = 0) : exec .ret s = .next (s.fail .invalidStackOperation) := by
  rw [exec, execRet, if_pos h, dispatch_raise]

/-! ## The stack region is all an instruction touches -/

/-- No instruction of a sound state writes a word outside the stack region. -/
theorem exec_readWord_outside {i : Instr} {k : Nat} (hi : s.Inv) (h : exec i s = .next t) (hk : ¬s.slotValid k) :
    t.mem.readWord k = s.mem.readWord k := by
  rcases exec_mem_cases h with hmem | ⟨slot, v, -, ⟨h0, -⟩, hvalid, hmem⟩
  · rw [hmem]
  · have hne : k ≠ slot.toNat := by
      rintro rfl
      rw [Int.toNat_of_nonneg h0] at hk
      exact hk (hvalid hi)
    rw [hmem, Memory.readWord_writeWord_ne _ _ hne]

/-- Settles O14: no write outside the region by `exec_readWord_outside`, no read outside it by `outcomeTwin_exec`, the failing
accesses by the lemma of each, and the good slots by the invariant. -/
theorem instructionsTouchOnlyTheStackRegion : Obligations.InstructionsTouchOnlyTheStackRegion := by
  unfold Obligations.InstructionsTouchOnlyTheStackRegion
  intro i s t hi h
  have result_eq {st : Status} (hfail : exec i s = .next (s.fail st)) : t = s.fail st :=
    Host.Outcome.next.inj (h.symm.trans hfail)
  refine ⟨fun k => exec_readWord_outside hi h, fun m hwf hagree => ?_, ?_, fun hpush => ⟨hi.slotValid_freeSlot, ?_⟩,
    fun hpop => ⟨fun hpos => hi.slotValid_topSlot ?_, fun hzero => result_eq ?_⟩⟩
  · obtain ⟨m', hexec, htwin⟩ := outcomeTwin_exec i hi ⟨rfl, hi.memWf, hwf, hagree⟩ t h
    exact ⟨m', hexec, htwin.agree⟩
  · rintro offset hbad r (rfl | rfl)
    · exact result_eq (exec_load_outside r hbad)
    · exact result_eq (exec_store_outside r hbad)
  · intro hfull
    obtain ⟨r, rfl⟩ | ⟨x, rfl⟩ := hpush
    · exact result_eq (exec_push_full r hfull)
    · exact result_eq (exec_call_full x hfull)
  · intro hempty
    simp [hempty] at hpos
  · have hempty : s.stackSize = 0 := BitVec.eq_of_toInt_eq hzero
    obtain ⟨r, rfl⟩ | rfl := hpop
    · exact exec_pop_empty r hempty
    · exact exec_ret_empty hempty

end Sys2Proof.Machine
end

section
/-! PROOF. The configuration (spec/30_encoding.md R57): it bounds the opcodes of the decoder and of the fetch, and every handler
does the same whatever it is. -/

namespace Sys2Proof

/-! ## Decoding in two configurations -/

theorem decode_of_lookup_eq_none {cfg : IsaConfig} {op : Word} (h : lookup cfg op = none) (rest : List Word) :
    decode cfg (op :: rest) = .error (.illegalOpcode op) := by
  simp only [decode, h]

theorem decode_congr_lookup {cfg cfg' : IsaConfig} {op : Word} (h : lookup cfg op = lookup cfg' op) (rest : List Word) :
    decode cfg (op :: rest) = decode cfg' (op :: rest) := by
  simp only [decode, h]

/-- An opcode word at or above `instructionCount` has no row. -/
theorem lookup_of_instructionCount_le {cfg : IsaConfig} {op : Word} (h : (cfg.instructionCount : Int) ≤ op.toInt) :
    lookup cfg op = none :=
  lookup_eq_none.2 fun ⟨_, hlt⟩ => by omega

/-- The tables are prefixes of one table: the smaller configurations have the rows of the full one, below their count. -/
theorem lookup_eq_lookup_jmpCall {cfg : IsaConfig} {op : Word} (h0 : 0 ≤ op.toInt) (h : op.toInt < cfg.instructionCount) :
    lookup cfg op = lookup .jmpCall op := by
  have hfull : op.toInt < IsaConfig.jmpCall.instructionCount :=
    lt_of_lt_of_le h (Int.ofNat_le.2 cfg.instructionCount_le)
  rw [lookup, lookup, if_pos ⟨h0, h⟩, if_pos ⟨h0, hfull⟩]

end Sys2Proof

namespace Sys2Proof.Machine

/-! ## The step on an opcode that has no row -/

theorem fetch_of_lookup_eq_none {s : State} (hr : s.ipInRange) (h : lookup s.params.isaConfig (s.codeWord 0) = none) :
    fetch s = .error .illegalInstruction := by
  rw [fetch, if_pos hr, h]

theorem step_of_lookup_eq_none {s : State} (hs : s.status = .ok) (hr : s.ipInRange)
    (h : lookup s.params.isaConfig (s.codeWord 0) = none) : step s = .next (s.fail .illegalInstruction) :=
  step_of_fetch_error hs (fetch_of_lookup_eq_none hr h)

/-! ## The same unit in another configuration -/

/-- The unit with another `ISA_CONFIG`, all else kept. -/
def State.withConfig (cfg : IsaConfig) (s : State) : State := { s with params := { s.params with isaConfig := cfg } }

/-- What a handler leaves, in the unit with another `ISA_CONFIG`. -/
def Handled.withConfig (cfg : IsaConfig) (hd : Handled) : Handled := ⟨hd.signal, hd.state.withConfig cfg⟩

/-- Change the state an outcome ends in; a fault and a refusal stay as they are. -/
def mapNext {α : Type} (f : α → α) : Host.Outcome α Fault Refusal → Host.Outcome α Fault Refusal
  | .next x => .next (f x)
  | .fault e => .fault e
  | .refused e => .refused e

/-- `H'` does under `cfg` what `H` does: it ends with the same signal and in the same state but for the configuration, or stops
for the same reason. -/
def SameUnderConfig (cfg : IsaConfig) (H H' : Handler) : Prop := H' = mapNext (Handled.withConfig cfg) H

variable {cfg : IsaConfig} {s : State}

theorem State.setReg_withConfig (s : State) (r : Reg) (v : Word) :
    (s.withConfig cfg).setReg r v = (s.setReg r v).withConfig cfg := by
  cases r <;> rfl

/-! ## The shared operations do not look at the configuration -/

theorem Handled.commit_withConfig (len : Nat) (hd : Handled) :
    (hd.withConfig cfg).commit len = (hd.commit len).withConfig cfg := by
  obtain ⟨signal, s⟩ := hd
  cases signal <;> rfl

theorem dispatch_sameUnderConfig {H H' : Handler} (len : Nat) (h : SameUnderConfig cfg H H') :
    dispatch len H' = mapNext (State.withConfig cfg) (dispatch len H) := by
  obtain rfl : H' = _ := h
  cases H with
  | next hd => exact congrArg Host.Outcome.next (Handled.commit_withConfig len hd)
  | fault e | refused e => rfl

theorem sameUnderConfig_proceed_setReg (s : State) (r : Reg) (v : Word) :
    SameUnderConfig cfg (proceed (s.setReg r v)) (proceed ((s.withConfig cfg).setReg r v)) :=
  congrArg proceed (State.setReg_withConfig s r v)

/-- A check made on what the configuration has no part in goes the same way in both. -/
theorem sameUnderConfig_ite {c : Prop} [Decidable c] {H₁ H₁' H₂ H₂' : Handler} (h₁ : SameUnderConfig cfg H₁ H₁')
    (h₂ : SameUnderConfig cfg H₂ H₂') : SameUnderConfig cfg (if c then H₁ else H₂) (if c then H₁' else H₂') := by
  by_cases hc : c
  · rwa [if_pos hc, if_pos hc]
  · rwa [if_neg hc, if_neg hc]

theorem sameUnderConfig_branchIf (s : State) (taken : Bool) (target : Word) :
    SameUnderConfig cfg (branchIf taken target s) (branchIf taken target (s.withConfig cfg)) :=
  sameUnderConfig_ite rfl rfl

theorem sameUnderConfig_receive (s : State) (r : Reg) (ans : InputAnswer Word) :
    SameUnderConfig cfg (.next (receive r ans s)) (.next (receive r ans (s.withConfig cfg))) := by
  cases ans with
  | value v => exact sameUnderConfig_proceed_setReg s r v
  | endOfInput =>
    rw [receive_endOfInput, receive_endOfInput, State.setReg_withConfig s]
    exact sameUnderConfig_proceed_setReg (s.setReg .C 0) r (-1)
  | malformed => rfl

/-- Of the parameters a division looks at `DIV_OVERFLOW` only. -/
theorem sameUnderConfig_divideA (s : State) (v : Word) :
    SameUnderConfig cfg (divideA v s) (divideA v (s.withConfig cfg)) := by
  by_cases h0 : v.toInt = 0
  · rw [divideA_zero h0, divideA_zero h0]
    rfl
  by_cases hover : s.a.toInt = -2147483648 ∧ v.toInt = -1
  · cases hp : s.params.divOverflow with
    | refuse =>
      rw [divideA_refuse hover hp, divideA_refuse (s := s.withConfig cfg) hover hp]
      rfl
    | wrap =>
      rw [divideA_wrap hover hp, divideA_wrap (s := s.withConfig cfg) hover hp]
      rfl
  · rw [divideA_quotient h0 hover, divideA_quotient (s := s.withConfig cfg) h0 hover]
    rfl

theorem sameUnderConfig_withReg {rest rest' : Reg → Handler} (w : Word)
    (hrest : ∀ r, SameUnderConfig cfg (rest r) (rest' r)) :
    SameUnderConfig cfg (withReg w s rest) (withReg w (s.withConfig cfg) rest') := by
  unfold withReg
  cases selected w with
  | some r => exact hrest r
  | none => rfl

theorem sameUnderConfig_withFrameSlot {rest rest' : Int → Handler} (offset : Word)
    (hrest : ∀ slot, SameUnderConfig cfg (rest slot) (rest' slot)) :
    SameUnderConfig cfg (withFrameSlot offset s rest) (withFrameSlot offset (s.withConfig cfg) rest') :=
  sameUnderConfig_ite (hrest _) rfl

theorem sameUnderConfig_readThen {rest rest' : Word → Handler} (index : Int)
    (hrest : ∀ v, SameUnderConfig cfg (rest v) (rest' v)) :
    SameUnderConfig cfg (readThen index s rest) (readThen index (s.withConfig cfg) rest') :=
  sameUnderConfig_ite (hrest _) rfl

theorem sameUnderConfig_writeThen {rest rest' : State → Handler} (index : Int) (v : Word)
    (hrest : ∀ s', SameUnderConfig cfg (rest s') (rest' (s'.withConfig cfg))) :
    SameUnderConfig cfg (writeThen index v s rest) (writeThen index v (s.withConfig cfg) rest') :=
  sameUnderConfig_ite (hrest _) rfl

theorem sameUnderConfig_pushThen {rest rest' : State → Handler} (v : Word)
    (hrest : ∀ s', SameUnderConfig cfg (rest s') (rest' (s'.withConfig cfg))) :
    SameUnderConfig cfg (pushThen v s rest) (pushThen v (s.withConfig cfg) rest') :=
  sameUnderConfig_ite rfl (sameUnderConfig_writeThen s.freeSlot v fun _ => hrest _)

/-! ## No instruction looks at the configuration -/

/-- An instruction ends the same in every configuration, or faults or is refused the same. -/
theorem exec_withConfig (i : Instr) (cfg : IsaConfig) (s : State) :
    exec i (s.withConfig cfg) = mapNext (State.withConfig cfg) (exec i s) := by
  cases i with
  | nop | halt | jmp => rfl
  | loop x | jz x | jnz x | jgt x => exact dispatch_sameUnderConfig 2 (sameUnderConfig_branchIf s _ x)
  | call x => exact dispatch_sameUnderConfig 2 (sameUnderConfig_pushThen _ fun _ => rfl)
  | ret =>
    exact dispatch_sameUnderConfig 1 (sameUnderConfig_ite rfl (sameUnderConfig_readThen s.topSlot fun _ =>
      sameUnderConfig_writeThen s.topSlot 0 fun _ => rfl))
  | swap w1 w2 =>
    refine dispatch_sameUnderConfig 3 (sameUnderConfig_withReg w1 fun r1 => sameUnderConfig_withReg w2 fun r2 => ?_)
    rw [State.setReg_withConfig s]
    exact sameUnderConfig_proceed_setReg (s.setReg r1 _) r2 _
  | cmp w1 w2 =>
    exact dispatch_sameUnderConfig 3 (sameUnderConfig_withReg w1 fun _ => sameUnderConfig_withReg w2 fun _ => rfl)
  | add w | sub w | mul w | out w => exact dispatch_sameUnderConfig 2 (sameUnderConfig_withReg w fun _ => rfl)
  | div w => exact dispatch_sameUnderConfig 2 (sameUnderConfig_withReg w fun r => sameUnderConfig_divideA s (s.reg r))
  | inc w | dec w =>
    exact dispatch_sameUnderConfig 2 (sameUnderConfig_withReg w fun r => sameUnderConfig_proceed_setReg s r _)
  | movr w v => exact dispatch_sameUnderConfig 3 (sameUnderConfig_withReg w fun r => sameUnderConfig_proceed_setReg s r v)
  | inp w | get w =>
    exact dispatch_sameUnderConfig 2 (sameUnderConfig_withReg w fun r => sameUnderConfig_receive { s with ports := _ } r _)
  | put w => exact dispatch_sameUnderConfig 2 (sameUnderConfig_withReg w fun _ => sameUnderConfig_ite rfl rfl)
  | load w o =>
    exact dispatch_sameUnderConfig 3 (sameUnderConfig_withReg w fun r => sameUnderConfig_withFrameSlot o fun slot =>
      sameUnderConfig_readThen slot fun v => sameUnderConfig_proceed_setReg s r v)
  | store w o =>
    exact dispatch_sameUnderConfig 3 (sameUnderConfig_withReg w fun r => sameUnderConfig_withFrameSlot o fun slot =>
      sameUnderConfig_writeThen slot (s.reg r) fun _ => rfl)
  | push w =>
    exact dispatch_sameUnderConfig 2 (sameUnderConfig_withReg w fun r => sameUnderConfig_pushThen (s.reg r) fun _ => rfl)
  | pop w =>
    refine dispatch_sameUnderConfig 2 (sameUnderConfig_withReg w fun r => sameUnderConfig_ite rfl
      (sameUnderConfig_readThen s.topSlot fun v => ?_))
    rw [State.setReg_withConfig s]
    rfl

/-- Settles O4: the decoder and the step by what `lookup` answers at, above and below the count, the handlers by
`exec_withConfig`. -/
theorem configurationSetsOnlyTheOpcodeCount : Obligations.ConfigurationSetsOnlyTheOpcodeCount := by
  unfold Obligations.ConfigurationSetsOnlyTheOpcodeCount
  refine ⟨⟨rfl, rfl, rfl⟩, fun cfg op rest hop => ?_, fun s hs hr hop => ?_, fun cfg op rest h0 hop => ?_,
    fun cfg i s t h => ?_⟩
  · exact decode_of_lookup_eq_none (lookup_of_instructionCount_le hop) rest
  · exact step_of_lookup_eq_none hs hr (lookup_of_instructionCount_le hop)
  · exact decode_congr_lookup (lookup_eq_lookup_jmpCall h0 hop) rest
  · exact (exec_withConfig i cfg s).trans (congrArg (mapNext (State.withConfig cfg)) h)

end Sys2Proof.Machine
end

section
/-! PROOF. The dispatch loop's checks and `nop` (spec/40_dispatch.md R71, R73, R79, R80): what the step transaction answers, the
fetches that fail with InvalidAddress, the statuses a handler sets, and a run over zero words. -/

namespace Sys2Proof

/-! ## Opcode numbers and the configuration -/

/-- A configuration's table holds the instructions numbered below its count (spec/30_encoding.md R57). -/
theorem wellFormed_iff_opcode_lt {cfg : IsaConfig} {i : Instr} :
    i.wellFormed cfg = true ↔ i.opcode < cfg.instructionCount := by
  cases cfg with
  | base | jmp | jmpCall =>
    cases i <;> simp [Instr.wellFormed, Instr.extension, IsaConfig.has, Instr.opcode, IsaConfig.instructionCount]

/-- The opcode word of an instruction of the configuration selects the row of its opcode number. -/
theorem lookup_opcode {cfg : IsaConfig} {i : Instr} (h : i.wellFormed cfg = true) :
    lookup cfg (BitVec.ofNat 32 i.opcode) = opcodeRow i.opcode := by
  have hlt : i.opcode < cfg.instructionCount := wellFormed_iff_opcode_lt.1 h
  have hsmall : i.opcode < 26 := lt_of_lt_of_le hlt cfg.instructionCount_le
  have hnat : (BitVec.ofNat 32 i.opcode).toNat = i.opcode := Nat.mod_eq_of_lt (by omega)
  have hint : (BitVec.ofNat 32 i.opcode).toInt = i.opcode := by
    rw [BitVec.toInt_eq_toNat_of_lt (by omega), hnat]
  rw [lookup, if_pos (by omega), hnat]

/-! ## The geometry -/

/-- Every index up to `stackLimit` is a signed word (spec/00_scope.md R1, D5). -/
theorem Params.stackLimit_lt_two_pow {p : Params} (h : p.wellFormed) : p.stackLimit < 2147483648 := by
  obtain ⟨-, hmax, -⟩ := h
  rw [Params.stackLimit_eq]
  omega

end Sys2Proof

namespace Sys2Proof.Machine

variable {s t : State}

/-! ## The step transaction -/

theorem transact_step_of_next (h : step s = .next t) :
    transact (some s) .step = .next (some t, .stepOk t.stepOk) := by
  simp only [transact, h]

@[simp] theorem State.stepOk_eq_false : s.stepOk = false ↔ s.status ≠ .ok := decide_eq_false_iff_not

@[simp] theorem State.stepOk_eq_true : s.stepOk = true ↔ s.status = .ok := decide_eq_true_iff

/-- A step that ends with a status other than OK answers 0 (R78). -/
theorem transact_step_of_stopped (h : step s = .next t) (ht : t.status ≠ .ok) :
    transact (some s) .step = .next (some t, .stepOk false) := by
  rw [transact_step_of_next h, State.stepOk_eq_false.2 ht]

/-- A step that ends with the status OK answers 1 (R78). -/
theorem transact_step_of_running (h : step s = .next t) (ht : t.status = .ok) :
    transact (some s) .step = .next (some t, .stepOk true) := by
  rw [transact_step_of_next h, State.stepOk_eq_true.2 ht]

/-- Settles O7: the step does nothing by `step_stopped`, and its answer is read off the status it leaves. -/
theorem stepOnAStoppedMachineChangesNothing : Obligations.StepOnAStoppedMachineChangesNothing := by
  unfold Obligations.StepOnAStoppedMachineChangesNothing
  intro s hs
  have hstep : step s = .next s := step_stopped hs
  exact ⟨hstep, transact_step_of_stopped hstep hs⟩

/-! ## Fetches that fail with InvalidAddress -/

/-- The opcode word is the word at `IP`. -/
theorem State.codeWord_zero (s : State) : s.codeWord 0 = s.mem.readWord s.ip.toInt.toNat := rfl

theorem fetch_of_not_ipInRange (h : ¬s.ipInRange) : fetch s = .error .invalidAddress := if_neg h

/-- Check 4 looks at the row's length alone: the operand words are not read. -/
theorem fetch_of_row_past_stackLimit {row : Row} (hr : s.ipInRange)
    (hrow : lookup s.params.isaConfig (s.codeWord 0) = some row)
    (hpast : s.params.stackLimit < s.ip.toInt + row.length) : fetch s = .error .invalidAddress := by
  simp only [fetch, if_pos hr, hrow, if_neg (not_le.2 hpast)]

/-- A running unit takes the exception of a failed fetch, and the step answers 0. -/
theorem step_transact_of_fetch_invalidAddress (hs : s.status = .ok) (hf : fetch s = .error .invalidAddress) :
    step s = .next (s.fail .invalidAddress) ∧
      transact (some s) .step = .next (some (s.fail .invalidAddress), .stepOk false) := by
  have hstep : step s = .next (s.fail .invalidAddress) := step_of_fetch_error hs hf
  exact ⟨hstep, transact_step_of_stopped hstep (by simp)⟩

/-- Settles O10: the row of the opcode word has the instruction's length by `EncodeShape.all`, so check 4 fails. -/
theorem instructionPastStackLimitSetsInvalidAddress : Obligations.InstructionPastStackLimitSetsInvalidAddress := by
  unfold Obligations.InstructionPastStackLimitSetsInvalidAddress
  intro s i hs hr hwf hop
  refine ⟨fun hpast => ?_, fun hone => ?_⟩
  · obtain ⟨-, -, -, row, hrow, hlen, -⟩ := Laws.EncodeShape.all i
    have hlookup : lookup s.params.isaConfig (s.codeWord 0) = some row := by
      rw [State.codeWord_zero, hop, lookup_opcode hwf, hrow]
    rw [← hlen] at hpast
    exact step_transact_of_fetch_invalidAddress hs (fetch_of_row_past_stackLimit hr hlookup hpast)
  · have hlt := hr.2
    omega

/-! ## The statuses a handler sets -/

/-- The statuses that instructions set (spec/60_exceptions.md R141). InvalidAddress and IllegalInstruction are not among them:
they are the fetch's. -/
def handlerStatuses : List Status := [.halted, .illegalOperand, .invalidStackOperation, .divByZero, .ioError]

theorem receive_commit_status (r : Reg) (ans : InputAnswer Word) (s : State) (len : Nat) :
    ((receive r ans s).commit len).status = s.status ∨ ((receive r ans s).commit len).status = .ioError := by
  cases ans with
  | value v => exact .inl (by simp)
  | endOfInput => exact .inl (by simp)
  | malformed => exact .inr rfl

/-- An instruction keeps the status or sets one of the handlers' statuses. -/
theorem exec_status_cases {i : Instr} (h : exec i s = .next t) : t.status = s.status ∨ t.status ∈ handlerStatuses := by
  rcases exec_cases h with ⟨w, -, -, rfl⟩ | he
  · exact .inr (by simp [handlerStatuses])
  cases i
  case nop | loop | jmp | jz | jnz | jgt =>
    obtain rfl : t = _ := he
    exact .inl rfl
  case halt =>
    obtain rfl : t = _ := he
    exact .inr (by simp [handlerStatuses])
  case add | sub | mul | inc | dec | movr | out =>
    obtain ⟨r, -, rfl⟩ := he
    exact .inl (by simp)
  case swap | cmp =>
    obtain ⟨r1, r2, -, -, rfl⟩ := he
    exact .inl (by simp)
  case div =>
    obtain ⟨r, -, ⟨-, rfl⟩ | ⟨-, -, -, rfl⟩ | ⟨-, -, rfl⟩⟩ := he
    · exact .inr (by simp [handlerStatuses])
    · exact .inl rfl
    · exact .inl rfl
  case put =>
    obtain ⟨r, -, ⟨-, rfl⟩ | ⟨-, rfl⟩⟩ := he
    · exact .inr (by simp [handlerStatuses])
    · exact .inl rfl
  case load | store | push | pop =>
    obtain ⟨r, -, ⟨-, rfl⟩ | ⟨-, -, rfl⟩⟩ := he
    · exact .inr (by simp [handlerStatuses])
    · exact .inl (by simp)
  case call | ret =>
    obtain ⟨-, rfl⟩ | ⟨-, -, rfl⟩ := he
    · exact .inr (by simp [handlerStatuses])
    · exact .inl rfl
  case inp | get =>
    obtain ⟨r, -, rfl⟩ := he
    exact (receive_commit_status r _ _ 2).imp id fun hio => by simp [hio, handlerStatuses]

/-- Settles O8: check 2 fails by `fetch_of_not_ipInRange`, and no handler's status is InvalidAddress. -/
theorem ipOutsideTheFetchRangeSetsInvalidAddress : Obligations.IpOutsideTheFetchRangeSetsInvalidAddress := by
  unfold Obligations.IpOutsideTheFetchRangeSetsInvalidAddress
  refine fun s hs => ⟨fun hr => step_transact_of_fetch_invalidAddress hs (fetch_of_not_ipInRange hr), fun i t h hbad => ?_⟩
  rcases exec_status_cases h with hkept | hset
  · exact absurd (hbad.symm.trans (hkept.trans hs)) (by decide)
  · rw [hbad] at hset
    exact absurd hset (by decide)

/-! ## `nop` -/

theorem exec_nop (s : State) : exec .nop s = .next { s with ip := s.ip + 1 } := rfl

theorem fetch_of_zero_word (hr : s.ipInRange) (h0 : s.mem.readWord s.ip.toInt.toNat = 0) : fetch s = .ok .nop := by
  have hlookup : lookup s.params.isaConfig (s.codeWord 0) = some (.zero .nop) := by
    rw [State.codeWord_zero, h0]
    exact lookup_opcode (i := .nop) rfl
  have hfit : s.ip.toInt + 1 ≤ s.params.stackLimit := hr.2
  exact fetch_eq_ok.2 ⟨hr, _, hlookup, hfit, rfl⟩

theorem step_of_zero_word (hs : s.status = .ok) (hr : s.ipInRange) (h0 : s.mem.readWord s.ip.toInt.toNat = 0) :
    step s = .next { s with ip := s.ip + 1 } := by
  rw [step_of_fetch hs (fetch_of_zero_word hr h0), exec_nop]

/-! ## A run over zero words -/

theorem core_run_succ_of_step {k : Nat} (h : step s = .next t) : core.run (k + 1) s = core.run k t := by
  have hcore : core.step s = .next t := h
  simp only [Host.Core.run, hcore]

/-- The next word index: in a legal geometry `IP` does not wrap below `stackLimit`. -/
theorem State.toInt_ip_add_one (hg : s.params.wellFormed) (hr : s.ipInRange) : (s.ip + 1).toInt = s.ip.toInt + 1 := by
  have hlimit := Params.stackLimit_lt_two_pow hg
  obtain ⟨hpos, hlt⟩ := hr
  rw [BitVec.toInt_add, show (1 : Word).toInt = 1 from rfl]
  exact Int.bmod_eq_of_le (by omega) (by omega)

/-- With `d` zero words from `IP` to `stackLimit`, the unit runs `d` `nop`s and then fails check 2. -/
theorem run_zero_words (d : Nat) {s : State} (hg : s.params.wellFormed) (hs : s.status = .ok) (hpos : 0 ≤ s.ip.toInt)
    (hd : s.ip.toInt + d = s.params.stackLimit)
    (hzero : ∀ k : Nat, s.ip.toInt ≤ k → (k : Int) < s.params.stackLimit → s.mem.readWord k = 0) :
    ∃ ip : Word, ip.toInt = s.params.stackLimit ∧
      core.run (d + 1) s = .next { s with status := .invalidAddress, ip := ip } := by
  induction d generalizing s with
  | zero =>
    have hout : ¬s.ipInRange := fun hr => by
      have hlt := hr.2
      omega
    exact ⟨s.ip, by omega, core_run_succ_of_step (step_of_fetch_error hs (fetch_of_not_ipInRange hout))⟩
  | succ d ih =>
    have hr : s.ipInRange := ⟨hpos, by omega⟩
    have hnext : (s.ip + 1).toInt = s.ip.toInt + 1 := State.toInt_ip_add_one hg hr
    have hword : s.mem.readWord s.ip.toInt.toNat = 0 := hzero _ (by omega) (by omega)
    obtain ⟨ip, hip, hrun⟩ := ih (s := { s with ip := s.ip + 1 }) hg hs (by simp only; omega) (by simp only; omega)
      fun k hk => hzero k (by simp only at hk; omega)
    exact ⟨ip, hip, (core_run_succ_of_step (step_of_zero_word hs hr hword)).trans hrun⟩

/-- Settles O33: one `nop` by `step_of_zero_word`, the run of them by `run_zero_words`. -/
theorem nopOnlyAdvancesIp : Obligations.NopOnlyAdvancesIp := by
  unfold Obligations.NopOnlyAdvancesIp
  refine ⟨⟨rfl, rfl, rfl, fun _ => rfl⟩, exec_nop, fun s hs hr h0 => ?_, fun s hg hs hpos hle hzero => ?_⟩
  · exact transact_step_of_running (step_of_zero_word hs hr h0) hs
  · obtain ⟨d, hd⟩ := Int.le.dest hle
    obtain ⟨ip, hip, hrun⟩ := run_zero_words d hg hs hpos hd hzero
    exact ⟨d + 1, _, by omega, hrun, rfl, hip⟩

end Sys2Proof.Machine
end

section
/-! PROOF. Data movement (spec/42_data_movement.md R100, R101): what `movr` and `swap` leave when their selectors are good, the
register file after an exchange, and the register that each peek name reads. -/

namespace Sys2Proof.Machine

variable (s : State) (r r1 r2 : Reg)

/-! ## Reading a register back -/

@[simp] theorem State.reg_withIp (x : Word) : ({ s with ip := x } : State).reg r = s.reg r := rfl

/-- The name under which `peek` shows a general register (spec/10_state.md R24). -/
def peekName : Reg → Char
  | .A => 'A'
  | .B => 'B'
  | .C => 'C'
  | .D => 'D'

theorem State.peek_peekName : s.peek (peekName r) = s.reg r := by cases r <;> rfl

/-! ## The register file after an exchange -/

/-- The registers with the values of `r1` and `r2` exchanged, as `swap` writes them: first `r1`, then `r2`. -/
def State.exchange : State := (s.setReg r1 (s.reg r2)).setReg r2 (s.reg r1)

theorem State.reg_exchange_left : (s.exchange r1 r2).reg r1 = s.reg r2 := by
  unfold State.exchange
  rcases eq_or_ne r1 r2 with rfl | hne
  · exact State.reg_setReg_same ..
  · rw [State.reg_setReg_ne _ _ _ _ hne, State.reg_setReg_same]

theorem State.reg_exchange_right : (s.exchange r1 r2).reg r2 = s.reg r1 := State.reg_setReg_same ..

theorem State.reg_exchange_other {r r1 r2 : Reg} (h1 : r ≠ r1) (h2 : r ≠ r2) : (s.exchange r1 r2).reg r = s.reg r := by
  rw [State.exchange, State.reg_setReg_ne _ _ _ _ h2, State.reg_setReg_ne _ _ _ _ h1]

@[simp] theorem State.exchange_self : s.exchange r r = s := by
  rw [State.exchange, State.setReg_reg, State.setReg_reg]

@[simp] theorem State.exchange_ip : (s.exchange r1 r2).ip = s.ip := by simp [State.exchange]
@[simp] theorem State.exchange_status : (s.exchange r1 r2).status = s.status := by simp [State.exchange]
@[simp] theorem State.exchange_stackSize : (s.exchange r1 r2).stackSize = s.stackSize := by simp [State.exchange]
@[simp] theorem State.exchange_result : (s.exchange r1 r2).result = s.result := by simp [State.exchange]
@[simp] theorem State.exchange_mem : (s.exchange r1 r2).mem = s.mem := by simp [State.exchange]
@[simp] theorem State.exchange_params : (s.exchange r1 r2).params = s.params := by simp [State.exchange]
@[simp] theorem State.exchange_ports : (s.exchange r1 r2).ports = s.ports := by simp [State.exchange]

/-! ## `movr` and `swap` with good selectors -/

theorem exec_movr (value : Word) : exec (.movr r.selector value) s = .next { s.setReg r value with ip := s.ip + 3 } := by
  rw [exec, execMovr, withReg_selector, dispatch_proceed, State.setReg_ip]
  rfl

theorem exec_swap : exec (.swap r1.selector r2.selector) s = .next { s.exchange r1 r2 with ip := s.ip + 3 } := by
  rw [exec, execSwap, withReg_selector, withReg_selector, dispatch_proceed, ← State.exchange, State.exchange_ip]
  rfl

/-! ## The obligations -/

/-- Settles O40: the effect is `exec_movr`, and `peek` shows what the written register reads. -/
theorem movrLoadsTheImmediate : Obligations.MovrLoadsTheImmediate := by
  unfold Obligations.MovrLoadsTheImmediate
  refine fun s value => ⟨fun _ => ⟨rfl, rfl⟩, fun r => exec_movr s r value, fun w hw => ?_, fun r t h => ?_⟩
  · exact exec_bad_selector s List.mem_cons_self hw
  · obtain rfl := Host.Outcome.next.inj ((exec_movr s r value).symm.trans h)
    calc _ = ({ s.setReg r value with ip := s.ip + 3 } : State).reg r := State.peek_peekName ..
      _ = (s.setReg r value).reg r := State.reg_withIp ..
      _ = value := State.reg_setReg_same ..

/-- Settles O41: the effect is `exec_swap`, read back through the lemmas about the exchange; a bad selector in either place
fails before the exchange. -/
theorem swapExchangesTwoRegisters : Obligations.SwapExchangesTwoRegisters := by
  unfold Obligations.SwapExchangesTwoRegisters
  refine fun s => ⟨fun _ _ => ⟨rfl, rfl⟩, fun r1 r2 => ?_, fun r => ?_, fun w1 w2 hw => ?_⟩
  · exact ⟨_, exec_swap s r1 r2, State.reg_exchange_left s r1 r2, State.reg_exchange_right s r1 r2,
      fun _ h1 h2 => State.reg_exchange_other s h1 h2, rfl, State.exchange_status .., State.exchange_stackSize ..,
      State.exchange_result .., State.exchange_mem .., State.exchange_params .., State.exchange_ports ..⟩
  · rw [exec_swap, State.exchange_self]
  · exact dispatch_withReg_withReg_bad hw

end Sys2Proof.Machine
end

section
/-! PROOF. The push (spec/43_stack.md R108): what `push` leaves on a stack with room, and the count of a push. -/

namespace Sys2Proof.Machine

variable {s : State}

/-! ## The stack pointer before and after a push -/

/-- Below the capacity of a legal geometry the stack size counts up without wrapping (spec/10_state.md R18, R25). -/
theorem State.toInt_stackSize_add_one (hi : s.Inv) (h : s.stackSize.toInt < s.params.stackCapacity) :
    (s.stackSize + 1).toInt = s.stackSize.toInt + 1 := by
  have hpos := hi.stackNonneg
  obtain ⟨-, hmax, hfit⟩ := hi.geometry
  rw [BitVec.toInt_add, show (1 : Word).toInt = 1 from rfl]
  exact Int.bmod_eq_of_le (by omega) (by omega)

/-- The slot of the first push. -/
theorem State.freeSlot_of_empty (h : s.stackSize.toInt = 0) : s.freeSlot = s.params.stackBottom := by
  rw [State.freeSlot, h, sub_zero]

/-- The slot of the last push. -/
theorem State.freeSlot_of_one_left (h : s.stackSize.toInt = s.params.stackCapacity - 1) :
    s.freeSlot = s.params.stackLimit + 1 := by
  rw [State.freeSlot, Params.stackLimit, h]
  ring

/-! ## `push` with a good selector -/

/-- The unit after `push` wrote `v` to the free slot and counted it. -/
def State.pushed (s : State) (v : Word) : State :=
  { s with mem := s.mem.writeWord s.freeSlot.toNat v, stackSize := s.stackSize + 1, ip := s.ip + 2 }

theorem exec_push_room (r : Reg) (hi : s.Inv) (h : s.stackSize.toInt < s.params.stackCapacity) :
    exec (.push r.selector) s = .next (s.pushed (s.reg r)) := by
  obtain ⟨-, -, hin⟩ := State.freeSlot_bounds hi h
  rw [exec, execPush, withReg_selector, pushThen_room h hin, dispatch_proceed]
  rfl

/-- The pushed word reads back from the free slot. -/
theorem State.readWord_pushed (v : Word) (hwf : s.mem.wf) : (s.pushed v).mem.readWord s.freeSlot.toNat = v :=
  Memory.readWord_writeWord_same _ _ _ hwf

/-- A push leaves every byte outside the free slot as it was. -/
theorem State.readByte_pushed_outside (v : Word) {a : Nat}
    (ha : ¬(4 * s.freeSlot.toNat ≤ a ∧ a < 4 * s.freeSlot.toNat + 4)) :
    (s.pushed v).mem.readByte a = s.mem.readByte a :=
  Memory.readByte_writeWord_outside _ _ _ _ (by omega)

/-- Settles O45: room on the stack by `exec_push_room`, read back through the lemmas about the pushed state; a full stack by
`exec_push_full`, of which capacity 0 is a case, and the bad selectors by `exec_bad_selector`. -/
theorem pushWritesTheNextFreeSlot : Obligations.PushWritesTheNextFreeSlot := by
  unfold Obligations.PushWritesTheNextFreeSlot
  refine fun s => ⟨fun _ => ⟨rfl, rfl⟩, fun r hi hroom => ?room, fun r hfull => exec_push_full r hfull,
    fun r hi hcap => exec_push_full r ?capacityZero, fun w hw => exec_bad_selector s List.mem_cons_self hw⟩
  case room =>
    obtain ⟨-, -, hpos, -⟩ := State.freeSlot_bounds hi hroom
    have hslot : (s.freeSlot.toNat : Int) = s.freeSlot := Int.toNat_of_nonneg hpos
    exact ⟨s.freeSlot.toNat, s.pushed (s.reg r), hslot, exec_push_room r hi hroom, rfl,
      State.toInt_stackSize_add_one hi hroom, State.readWord_pushed _ hi.memWf,
      fun _ ha => State.readByte_pushed_outside _ ha,
      fun hempty => hslot.trans (State.freeSlot_of_empty hempty),
      fun hlast => hslot.trans (State.freeSlot_of_one_left hlast)⟩
  case capacityZero =>
    rw [hcap]
    exact hi.stackNonneg

end Sys2Proof.Machine
end

section
/-! PROOF. Loop and jumps (spec/45_branch.md R125 to R130): where each control transfer leaves `IP`, which instructions keep the
result register, and what `jgt` sees after a `cmp` that did not wrap. -/

namespace Sys2Proof

/-- The configurations that have the jump group (spec/30_encoding.md R57): all but `BASE`. -/
theorem wellFormed_iff_of_extension_jump {i : Instr} (h : i.extension = .jump) (cfg : IsaConfig) :
    i.wellFormed cfg = true ↔ cfg = .jmp ∨ cfg = .jmpCall := by
  rw [Instr.wellFormed, h]
  cases cfg <;> decide

end Sys2Proof

namespace Sys2Proof.Machine

variable (s : State) (index : Word)

/-! ## Where a control transfer goes -/

theorem exec_jmp : exec (.jmp index) s = .next { s with ip := index } := rfl

theorem exec_loop : exec (.loop index) s = .next { s with ip := if s.c.toInt ≠ 0 then index else s.ip + 2 } :=
  dispatch_branchIf index s

theorem exec_jz : exec (.jz index) s = .next { s with ip := if s.result.toInt = 0 then index else s.ip + 2 } :=
  dispatch_branchIf index s

theorem exec_jnz : exec (.jnz index) s = .next { s with ip := if s.result.toInt ≠ 0 then index else s.ip + 2 } :=
  dispatch_branchIf index s

theorem exec_jgt : exec (.jgt index) s = .next { s with ip := if 0 < s.result.toInt then index else s.ip + 2 } :=
  dispatch_branchIf index s

/-! ## The result register -/

theorem exec_cmp (r1 r2 : Reg) : exec (.cmp r1.selector r2.selector) s =
    .next { s with result := compareResult (s.reg r1) (s.reg r2), ip := s.ip + 3 } := by
  rw [exec, execCmp, withReg_selector, withReg_selector, dispatch_proceed]
  rfl

variable {s} {t : State}

@[simp] theorem Handled.commit_result (len : Nat) (hd : Handled) : (hd.commit len).result = hd.state.result := by
  obtain ⟨signal, s⟩ := hd
  cases signal <;> rfl

@[simp] theorem receive_result (r : Reg) (ans : InputAnswer Word) (s : State) : (receive r ans s).state.result = s.result := by
  cases ans <;> simp

/-- `cmp` alone writes the result register (spec/10_state.md R21). -/
theorem exec_result_of_ne_cmp {i : Instr} (h : exec i s = .next t) (hcmp : ∀ w1 w2, i ≠ .cmp w1 w2) :
    t.result = s.result := by
  rcases exec_cases h with ⟨w, -, -, rfl⟩ | he
  · exact State.fail_result s _
  cases i
  case cmp w1 w2 => exact absurd rfl (hcmp w1 w2)
  case nop | halt | loop | jmp | jz | jnz | jgt =>
    obtain rfl : t = _ := he
    rfl
  case add | sub | mul | inc | dec | movr | out | inp | get =>
    obtain ⟨r, -, rfl⟩ := he
    simp
  case swap =>
    obtain ⟨r1, r2, -, -, rfl⟩ := he
    simp
  case div => obtain ⟨r, -, ⟨-, rfl⟩ | ⟨-, -, -, rfl⟩ | ⟨-, -, rfl⟩⟩ := he <;> rfl
  case put => obtain ⟨r, -, ⟨-, rfl⟩ | ⟨-, rfl⟩⟩ := he <;> rfl
  case load | store | push | pop => obtain ⟨r, -, ⟨-, rfl⟩ | ⟨-, -, rfl⟩⟩ := he <;> simp
  case call | ret => obtain ⟨-, rfl⟩ | ⟨-, -, rfl⟩ := he <;> rfl

/-- A difference that fits in 32 bits is not wrapped (spec/41_arithmetic.md R96). -/
theorem toInt_compareResult {x y : Word} (hlo : -2147483648 ≤ x.toInt - y.toInt) (hhi : x.toInt - y.toInt ≤ 2147483647) :
    (compareResult x y).toInt = x.toInt - y.toInt := by
  rw [compareResult, BitVec.toInt_ofInt]
  exact Int.bmod_eq_of_le (by omega) (by omega)

/-! ## The obligations -/

/-- Settles O53: `exec_loop`, whose condition is decided either way. -/
theorem loopJumpsWhileCIsNotZero : Obligations.LoopJumpsWhileCIsNotZero := by
  unfold Obligations.LoopJumpsWhileCIsNotZero
  refine fun s index => ⟨⟨rfl, rfl, fun cfg => ?inEveryConfig⟩, fun hc => ?taken, fun hc => ?notTaken⟩
  case inEveryConfig => cases cfg <;> rfl
  case taken => rw [exec_loop, if_pos hc]
  case notTaken => rw [exec_loop, if_neg (not_not.2 hc)]

/-- Settles O55: `exec_jmp`, and the configurations of the jump group. -/
theorem jmpSetsIp : Obligations.JmpSetsIp := by
  unfold Obligations.JmpSetsIp
  exact fun s index => ⟨⟨rfl, rfl, wellFormed_iff_of_extension_jump rfl⟩, exec_jmp s index⟩

/-- Settles O56: the jumps by `exec_jz`, `exec_jnz` and `exec_jgt`; the result register persists by `exec_result_of_ne_cmp`, is
zero after reset, and after a `cmp` that did not wrap it is positive exactly when the first register is the greater. -/
theorem conditionalJumpsTestTheResult : Obligations.ConditionalJumpsTestTheResult := by
  unfold Obligations.ConditionalJumpsTestTheResult
  refine fun s index => ⟨fun i hi => ?format, exec_jz s index, exec_jnz s index, exec_jgt s index,
    fun i t => exec_result_of_ne_cmp, ?afterReset, fun r1 r2 t ht hlo hhi => ?afterCmp⟩
  case format =>
    simp only [List.mem_cons, List.not_mem_nil, or_false] at hi
    obtain rfl | rfl | rfl := hi <;> exact ⟨rfl, rfl, wellFormed_iff_of_extension_jump rfl⟩
  case afterReset =>
    have hzero : s.resetUnit.result.toInt = 0 := by rw [State.resetUnit_result]; rfl
    rw [exec_jz, if_pos hzero]
  case afterCmp =>
    obtain rfl := Host.Outcome.next.inj ((exec_cmp s r1 r2).symm.trans ht)
    have hgt : 0 < (compareResult (s.reg r1) (s.reg r2)).toInt ↔ (s.reg r1).toInt > (s.reg r2).toInt := by
      rw [toInt_compareResult hlo hhi, sub_pos]
    rw [exec_jgt]
    simp only [hgt]

end Sys2Proof.Machine
end

section
/-! PROOF. Call and return (spec/46_call_return.md R135, R136): what `call` leaves on a stack with room, what `ret` leaves on a
stack with a word, and the two of them one after the other. -/

namespace Sys2Proof.Machine

variable {s : State} {index : Word}

/-! ## The counts and the return address as signed integers -/

theorem State.stackSize_ne_zero (h : 0 < s.stackSize.toInt) : s.stackSize ≠ 0 := by
  intro hempty
  simp [hempty] at h

/-- A sound stack with a word on it counts down without wrapping (spec/10_state.md R18, R25). -/
theorem State.toInt_stackSize_sub_one (hi : s.Inv) (h : 0 < s.stackSize.toInt) :
    (s.stackSize - 1).toInt = s.stackSize.toInt - 1 := by
  have hcap := hi.stackBounded
  obtain ⟨-, hmax, hfit⟩ := hi.geometry
  rw [BitVec.toInt_sub, show (1 : Word).toInt = 1 from rfl]
  exact Int.bmod_eq_of_le (by omega) (by omega)

/-- The index of the word after a two-word instruction that fits below `stackLimit`, which it may equal. -/
theorem State.toInt_ip_add_two (hg : s.params.wellFormed) (hpos : 0 ≤ s.ip.toInt)
    (hfit : s.ip.toInt + 2 ≤ s.params.stackLimit) : (s.ip + 2).toInt = s.ip.toInt + 2 := by
  have hlimit := Params.stackLimit_lt_two_pow hg
  rw [BitVec.toInt_add, show (2 : Word).toInt = 2 from rfl]
  exact Int.bmod_eq_of_le (by omega) (by omega)

/-- A running unit whose `IP` is outside `[0, stackLimit)` fails check 2 (spec/40_dispatch.md R71). -/
theorem step_of_not_ipInRange (hs : s.status = .ok) (h : ¬s.ipInRange) : step s = .next (s.fail .invalidAddress) :=
  step_of_fetch_error hs (fetch_of_not_ipInRange h)

/-! ## `call` -/

/-- The unit after `call` pushed the return address and jumped. -/
def State.called (s : State) (index : Word) : State := { s.pushed (s.ip + 2) with ip := index }

theorem exec_call_room (index : Word) (hi : s.Inv) (h : s.stackSize.toInt < s.params.stackCapacity) :
    exec (.call index) s = .next (s.called index) := by
  obtain ⟨-, -, hin⟩ := State.freeSlot_bounds hi h
  rw [exec, execCall, pushThen_room h hin, dispatch_jumpTo]
  rfl

/-! ## `ret` -/

/-- The unit after `ret` jumped to the top word and took it off the stack. -/
def State.returned (s : State) : State :=
  { s with mem := s.mem.writeWord s.topSlot.toNat 0, stackSize := s.stackSize - 1, ip := s.mem.readWord s.topSlot.toNat }

theorem exec_ret_nonempty (h : s.stackSize ≠ 0) (hin : 0 ≤ s.topSlot ∧ s.topSlot < s.params.memWords) :
    exec .ret s = .next s.returned := by
  rw [exec, execRet, if_neg h, readThen_inside hin, writeThen_inside hin, dispatch_jumpTo]
  rfl

/-- The vacated slot is 0. -/
theorem State.readWord_returned (hwf : s.mem.wf) : s.returned.mem.readWord s.topSlot.toNat = 0 :=
  Memory.readWord_writeWord_same _ _ _ hwf

/-- A return leaves every byte outside the vacated slot as it was. -/
theorem State.readByte_returned_outside {a : Nat} (ha : ¬(4 * s.topSlot.toNat ≤ a ∧ a < 4 * s.topSlot.toNat + 4)) :
    s.returned.mem.readByte a = s.mem.readByte a :=
  Memory.readByte_writeWord_outside _ _ _ _ (by omega)

/-! ## `call` and then `ret` -/

/-- The slot `call` fills is the top slot that the matching `ret` reads. -/
theorem State.topSlot_called (index : Word) (hi : s.Inv) (h : s.stackSize.toInt < s.params.stackCapacity) :
    (s.called index).topSlot = s.freeSlot := by
  have hcount : (s.called index).stackSize.toInt = s.stackSize.toInt + 1 := State.toInt_stackSize_add_one hi h
  have hparams : (s.called index).params = s.params := rfl
  rw [State.topSlot, State.freeSlot, State.freeSlot, hcount, hparams]
  ring

/-- The unit after a `call` and the `ret` of an empty routine: past the `call`, with the slot used cleared. -/
def State.calledAndReturned (s : State) : State :=
  { s with mem := (s.pushed (s.ip + 2)).mem.writeWord s.freeSlot.toNat 0, ip := s.ip + 2 }

theorem State.returned_called (index : Word) (hi : s.Inv) (h : s.stackSize.toInt < s.params.stackCapacity) :
    (s.called index).returned = s.calledAndReturned := by
  have haddr : (s.called index).mem.readWord s.freeSlot.toNat = s.ip + 2 := State.readWord_pushed _ hi.memWf
  have hcount : (s.called index).stackSize - 1 = s.stackSize := BitVec.add_sub_cancel _ _
  rw [State.returned, State.topSlot_called index hi h, haddr, hcount]
  rfl

theorem exec_ret_called (index : Word) (hi : s.Inv) (h : s.stackSize.toInt < s.params.stackCapacity) :
    exec .ret (s.called index) = .next s.calledAndReturned := by
  obtain ⟨-, -, hin⟩ := State.freeSlot_bounds hi h
  have hcount : (s.called index).stackSize.toInt = s.stackSize.toInt + 1 := State.toInt_stackSize_add_one hi h
  have hnonneg := hi.stackNonneg
  rw [exec_ret_nonempty (State.stackSize_ne_zero (by omega)) (by rwa [State.topSlot_called index hi h]),
    State.returned_called index hi h]

/-- The slot that a `call` and its `ret` used is 0. -/
theorem State.readWord_calledAndReturned (hwf : s.mem.wf) :
    s.calledAndReturned.mem.readWord s.freeSlot.toNat = 0 :=
  Memory.readWord_writeWord_same _ _ _ (Memory.writeWord_wf _ _ _ hwf)

/-- A `call` and its `ret` leave every word but the slot they used as it was. -/
theorem State.readWord_calledAndReturned_ne {k : Nat} (hk : k ≠ s.freeSlot.toNat) :
    s.calledAndReturned.mem.readWord k = s.mem.readWord k :=
  (Memory.readWord_writeWord_ne _ _ hk).trans (Memory.readWord_writeWord_ne _ _ hk)

/-! ## The obligations -/

/-- Settles O57: room on the stack by `exec_call_room`, read back through the lemmas about the pushed state; a return address
equal to `stackLimit` by `exec_ret_called`, whose `IP` fails check 2; a full stack by `exec_call_full`. -/
theorem callPushesTheReturnAddress : Obligations.CallPushesTheReturnAddress := by
  unfold Obligations.CallPushesTheReturnAddress
  refine fun s index => ⟨⟨rfl, rfl⟩, fun hi hroom => ?room, exec_call_full index⟩
  obtain ⟨-, -, hpos, -⟩ := State.freeSlot_bounds hi hroom
  have hread : (s.called index).mem.readWord s.freeSlot.toNat = s.ip + 2 := State.readWord_pushed _ hi.memWf
  refine ⟨s.freeSlot.toNat, s.called index, Int.toNat_of_nonneg hpos, exec_call_room index hi hroom, rfl,
    State.toInt_stackSize_add_one hi hroom, hread, fun _ ha => State.readByte_pushed_outside _ ha,
    fun hip hfit => ?address, fun hs hip hlimit => ?returnToStackLimit⟩
  case address => rw [hread, State.toInt_ip_add_two hi.geometry hip hfit]
  case returnToStackLimit =>
    have hback : s.calledAndReturned.ip.toInt = s.params.stackLimit :=
      (State.toInt_ip_add_two hi.geometry hip hlimit.le).trans hlimit
    have hout : ¬s.calledAndReturned.ipInRange := fun hr => hr.2.ne hback
    exact ⟨s.calledAndReturned, exec_ret_called index hi hroom, hs, hback, step_of_not_ipInRange hs hout⟩

/-- Settles O58: a word on the stack by `exec_ret_nonempty`, read back through the lemmas about the returned state; a bad target
by `step_of_not_ipInRange`; an empty stack by `exec_ret_empty`. -/
theorem retJumpsToTheTopWordAndZeroesIt : Obligations.RetJumpsToTheTopWordAndZeroesIt := by
  unfold Obligations.RetJumpsToTheTopWordAndZeroesIt
  refine ⟨⟨rfl, rfl⟩, fun s => ⟨fun hi hpos => ?nonempty, fun hempty => exec_ret_empty (BitVec.eq_of_toInt_eq hempty)⟩⟩
  have hne := State.stackSize_ne_zero hpos
  obtain ⟨-, -, hin⟩ := State.topSlot_bounds hi hne
  exact ⟨s.topSlot.toNat, s.returned, Int.toNat_of_nonneg hin.1, exec_ret_nonempty hne hin, rfl,
    State.toInt_stackSize_sub_one hi hpos, State.readWord_returned hi.memWf,
    fun _ ha => State.readByte_returned_outside ha, step_of_not_ipInRange (s := s.returned)⟩

/-- Settles O59: `exec_call_room`, then `exec_ret_called`. -/
theorem callThenRetReturns : Obligations.CallThenRetReturns := by
  unfold Obligations.CallThenRetReturns
  intro s index hi hroom
  obtain ⟨-, -, hpos, -⟩ := State.freeSlot_bounds hi hroom
  exact ⟨s.freeSlot.toNat, s.called index, s.calledAndReturned, Int.toNat_of_nonneg hpos, exec_call_room index hi hroom,
    exec_ret_called index hi hroom, rfl, State.readWord_calledAndReturned hi.memWf,
    fun _ hk => State.readWord_calledAndReturned_ne hk⟩

end Sys2Proof.Machine
end

section
/-! PROOF. Exceptions (spec/60_exceptions.md R143, R147): the two forms of the state a failing step leaves, and a stopped unit,
which only reset brings back. -/

namespace Sys2Proof.Machine

variable {s t : State}

/-! ## What a failing step leaves -/

/-- How a unit takes an exception (R143): only the status is written, or the host's malformed answer to an input request was
taken as well. -/
inductive TakesException (s : State) : State → Prop where
  | raised (st : Status) : TakesException s (s.fail st)
  | malformedRead (ports : Ports) (houtput : ports.output = s.ports.output) :
      TakesException s (({ s with ports := ports } : State).fail .ioError)

/-- An answer of the host is delivered with the status kept, or it is malformed and raises IOError. -/
theorem receive_commit_cases (r : Reg) (ans : InputAnswer Word) (s : State) (len : Nat) :
    ((receive r ans s).commit len).status = s.status ∨ (receive r ans s).commit len = s.fail .ioError := by
  cases ans with
  | value v => exact .inl (by simp)
  | endOfInput => exact .inl (by simp)
  | malformed => exact .inr rfl

/-- Both input requests end alike: the answer is delivered, or the exception of a malformed read is taken. -/
theorem receive_takesException (r : Reg) (ans : InputAnswer Word) {ports : Ports} (houtput : ports.output = s.ports.output)
    (ht : t = (receive r ans { s with ports := ports }).commit 2) : t.status = s.status ∨ TakesException s t := by
  subst ht
  rcases receive_commit_cases r ans { s with ports := ports } 2 with hkept | hfail
  · exact .inl hkept
  · exact .inr (hfail ▸ .malformedRead ports houtput)

/-- An instruction other than `halt` keeps the status or takes an exception. -/
theorem exec_takesException {i : Instr} (h : exec i s = .next t) :
    i = .halt ∧ t.status = .halted ∨ t.status = s.status ∨ TakesException s t := by
  rcases exec_cases h with ⟨w, -, -, rfl⟩ | he
  · exact .inr (.inr (.raised _))
  cases i
  case halt =>
    obtain rfl : t = _ := he
    exact .inl ⟨rfl, rfl⟩
  all_goals right
  case nop | loop | jmp | jz | jnz | jgt =>
    obtain rfl : t = _ := he
    exact .inl rfl
  case add | sub | mul | inc | dec | movr | out =>
    obtain ⟨r, -, rfl⟩ := he
    exact .inl (by simp)
  case swap | cmp =>
    obtain ⟨r1, r2, -, -, rfl⟩ := he
    exact .inl (by simp)
  case div =>
    obtain ⟨r, -, ⟨-, rfl⟩ | ⟨-, -, -, rfl⟩ | ⟨-, -, rfl⟩⟩ := he
    · exact .inr (.raised _)
    · exact .inl rfl
    · exact .inl rfl
  case put =>
    obtain ⟨r, -, ⟨-, rfl⟩ | ⟨-, rfl⟩⟩ := he
    · exact .inr (.raised _)
    · exact .inl rfl
  case load | store | push | pop =>
    obtain ⟨r, -, ⟨-, rfl⟩ | ⟨-, -, rfl⟩⟩ := he
    · exact .inr (.raised _)
    · exact .inl (by simp)
  case call | ret =>
    obtain ⟨-, rfl⟩ | ⟨-, -, rfl⟩ := he
    · exact .inr (.raised _)
    · exact .inl rfl
  case inp =>
    obtain ⟨r, -, ht⟩ := he
    exact receive_takesException r _ s.ports.inInt_output ht
  case get =>
    obtain ⟨r, -, ht⟩ := he
    exact receive_takesException r _ s.ports.inChar_output ht

/-- A step that ends a running unit with a failure status takes an exception: one the fetch raised, or one of the
instruction's. -/
theorem step_takesException (h : step s = .next t) (hs : s.status = .ok) (hok : t.status ≠ .ok)
    (hhalt : t.status ≠ .halted) : TakesException s t := by
  rcases step_cases s with ⟨hstopped, -⟩ | ⟨-, i, -, hexec⟩ | ⟨-, st, -, hfail⟩
  · exact absurd hs hstopped
  · rcases exec_takesException (hexec.symm.trans h) with ⟨-, hhalted⟩ | hkept | htakes
    · exact absurd hhalted hhalt
    · exact absurd (hkept.trans hs) hok
    · exact htakes
  · obtain rfl := Host.Outcome.next.inj (hfail.symm.trans h)
    exact .raised st

/-- Settles O11: by `step_takesException`, and each form of the exception writes what the statement allows it. -/
theorem failingStepWritesOnlyTheStatus : Obligations.FailingStepWritesOnlyTheStatus := by
  unfold Obligations.FailingStepWritesOnlyTheStatus
  intro s t h hs hok hhalt
  cases step_takesException h hs hok hhalt with
  | raised st => exact ⟨rfl, rfl, fun _ => rfl⟩
  | malformedRead ports houtput => exact ⟨rfl, houtput, fun hio => absurd rfl hio⟩

/-! ## A stopped unit -/

/-- A session of transactions that each leave the unit as it is leaves it as it is. -/
theorem session_of_unit_kept {unit : Option State} {reqs : List Request}
    (h : ∀ req ∈ reqs, ∃ reply, transact unit req = .next (unit, reply)) :
    ∃ replies, session unit reqs = .next (unit, replies) := by
  induction reqs with
  | nil => exact ⟨[], rfl⟩
  | cons req reqs ih =>
    obtain ⟨hreq, hreqs⟩ := List.forall_mem_cons.1 h
    obtain ⟨reply, hreply⟩ := hreq
    obtain ⟨replies, hreplies⟩ := ih hreqs
    exact ⟨reply :: replies, by simp only [session, hreply, hreplies]⟩

/-- A step, a status read or a peek leaves a stopped unit as it is. -/
theorem transact_stopped (hs : s.status ≠ .ok) {req : Request}
    (hreq : req = .step ∨ req = .status ∨ ∃ name, req = .peek name) :
    ∃ reply, transact (some s) req = .next (some s, reply) := by
  obtain rfl | rfl | ⟨name, rfl⟩ := hreq
  · exact ⟨_, transact_step_of_next (step_stopped hs)⟩
  · exact ⟨_, rfl⟩
  · exact ⟨_, rfl⟩

/-! ## Memory after reset -/

/-- Reset zeroes the words from `stackLimit` to `stackBottom` (spec/70_reset_and_hazards.md R161). -/
theorem State.readWord_resetUnit_stack {k : Nat} (hlo : s.params.stackLimit ≤ k) (hhi : (k : Int) ≤ s.params.stackBottom) :
    s.resetUnit.mem.readWord k = 0 := by
  rw [State.resetUnit_mem]
  exact Memory.readWord_zeroWords_inside _ (by omega) (by omega)

/-- Reset keeps the words below `stackLimit`, the program among them. -/
theorem State.readWord_resetUnit_program {k : Nat} (h : (k : Int) < s.params.stackLimit) :
    s.resetUnit.mem.readWord k = s.mem.readWord k := by
  rw [State.resetUnit_mem]
  exact Memory.readWord_zeroWords_outside _ (.inl (by omega))

/-- Settles O23: the sessions by `session_of_unit_kept` and `transact_stopped`, the unit after reset by the lemmas of each
field and of Memory after reset. -/
theorem stoppedUnitStaysStoppedUntilReset : Obligations.StoppedUnitStaysStoppedUntilReset := by
  unfold Obligations.StoppedUnitStaysStoppedUntilReset
  intro s hs
  exact ⟨fun reqs hreqs => session_of_unit_kept fun req hmem => transact_stopped hs (hreqs req hmem),
    s.resetUnit_status, s.resetUnit_ip, s.resetUnit_reg, s.resetUnit_stackSize,
    fun _ hlo => State.readWord_resetUnit_stack hlo.le, fun _ => State.readWord_resetUnit_program⟩

end Sys2Proof.Machine
end

section
/-! PROOF. The reset transaction (spec/70_reset_and_hazards.md R161): what it zeroes and what it keeps. -/

namespace Sys2Proof.Machine

/-- Reset keeps every byte outside the words from `stackLimit` to `stackBottom`. -/
theorem State.readByte_resetUnit_outside {s : State} {a : Nat}
    (h : (a : Int) < 4 * s.params.stackLimit ∨ 4 * (s.params.stackBottom + 1) ≤ a) :
    s.resetUnit.mem.readByte a = s.mem.readByte a := by
  rw [State.resetUnit_mem, Memory.readByte_zeroWords]
  exact if_neg (by omega)

/-- Settles O21: the fields by the lemmas of each field, the zeroed words by `State.readWord_resetUnit_stack`, the bytes kept by
`State.readByte_resetUnit_outside`. -/
theorem resetZeroesRegistersAndStack : Obligations.ResetZeroesRegistersAndStack := by
  unfold Obligations.ResetZeroesRegistersAndStack
  intro s
  exact ⟨rfl, s.resetUnit_reg .A, s.resetUnit_reg .B, s.resetUnit_reg .C, s.resetUnit_reg .D, s.resetUnit_result,
    s.resetUnit_status, s.resetUnit_stackSize, s.resetUnit_ip, s.resetUnit_params,
    fun _ => State.readWord_resetUnit_stack, fun _ => State.readByte_resetUnit_outside⟩

end Sys2Proof.Machine
end

section
/-! PROOF. Decoder and encoder (spec/30_encoding.md sections 1, 4, 6): what a successful decode says, the round trip in both
directions, and the step on the instruction decoded at `IP`. -/

namespace Sys2Proof

/-! ## What decoding does -/

theorem decode_of_row {cfg : IsaConfig} {op : Word} {operands : List Word} {row : Row} (hrow : lookup cfg op = some row)
    (hlen : row.operands ≤ operands.length) :
    decode cfg (op :: operands) =
      .ok (row.fill fun k => (op :: operands).getD k 0, operands.drop row.operands) := by
  simp only [decode, hrow, if_neg (not_lt.2 hlen)]

/-- A decode succeeds exactly on an opcode word that has a row, followed by the row's operand words. -/
theorem decode_eq_ok {cfg : IsaConfig} {words rest : List Word} {i : Instr} :
    decode cfg words = .ok (i, rest) ↔
      ∃ op operands row, words = op :: operands ∧ lookup cfg op = some row ∧ row.operands ≤ operands.length ∧
        i = row.fill (fun k => words.getD k 0) ∧ rest = operands.drop row.operands := by
  constructor
  · intro h
    cases words with
    | nil => simp [decode] at h
    | cons op operands =>
      cases hrow : lookup cfg op with
      | none => simp [decode_of_lookup_eq_none hrow] at h
      | some row =>
        by_cases hlen : row.operands ≤ operands.length
        · rw [decode_of_row hrow hlen, Except.ok.injEq, Prod.mk.injEq] at h
          exact ⟨op, operands, row, rfl, hrow, hlen, h.1.symm, h.2.symm⟩
        · simp [decode, hrow, not_le.1 hlen] at h
  · rintro ⟨op, operands, row, rfl, hrow, hlen, rfl, rfl⟩
    exact decode_of_row hrow hlen

/-- Settles O5: the opcode words without a row are those out of range, and an opcode word with a row fails in no other way. -/
theorem opcodeWordsOutsideTheTableAreIllegal : Obligations.OpcodeWordsOutsideTheTableAreIllegal := by
  unfold Obligations.OpcodeWordsOutsideTheTableAreIllegal
  intro cfg op rest
  rw [← lookup_eq_none]
  refine ⟨fun h => ?_, fun h => decode_of_lookup_eq_none h rest⟩
  cases hrow : lookup cfg op with
  | none => rfl
  | some row =>
    by_cases hlen : row.operands ≤ rest.length
    · simp [decode_of_row hrow hlen] at h
    · simp [decode, hrow, not_le.1 hlen] at h

/-! ## The rows of the table and the encoder -/

/-- The opcode number of the instruction a row makes is the row's place in the table. -/
theorem opcodeRow_fill_opcode {n : Nat} {row : Row} (h : opcodeRow n = some row) (word : Nat → Word) :
    (row.fill word).opcode = n := by
  unfold opcodeRow at h
  split at h <;> cases h <;> rfl

/-- The operand words of the instruction a row makes are the words it was filled with, in order. -/
theorem opcodeRow_fill_operandWords {n : Nat} {row : Row} (h : opcodeRow n = some row) (word : Nat → Word) :
    (row.fill word).operandWords = (List.range row.operands).map fun k => word (k + 1) := by
  unfold opcodeRow at h
  split at h <;> cases h <;> rfl

theorem take_eq_map_getD {α : Type} {n : Nat} {l : List α} (d : α) (h : n ≤ l.length) :
    l.take n = (List.range n).map fun k => l.getD k d := by
  refine List.ext_getElem (by simpa using h) fun k hk _ => ?_
  have hkl : k < l.length := by simp at hk; omega
  simp [List.getElem?_eq_getElem hkl]

/-- A row that a configuration selects makes instructions the configuration has. -/
theorem wellFormed_of_lookup {cfg : IsaConfig} {op : Word} {row : Row} (h : lookup cfg op = some row)
    (word : Nat → Word) : (row.fill word).wellFormed cfg = true := by
  obtain ⟨⟨h0, hlt⟩, htable⟩ := lookup_eq_some.1 h
  rw [wellFormed_iff_opcode_lt, opcodeRow_fill_opcode htable]
  have hnat : op.toInt = op.toNat := by
    rw [BitVec.toInt_eq_toNat_cond] at h0 ⊢
    split_ifs at h0 ⊢ <;> omega
  omega

/-- What the decoder answers and the words it leaves make up the words it was given. -/
theorem encode_append_of_decode {cfg : IsaConfig} {words rest : List Word} {i : Instr}
    (h : decode cfg words = .ok (i, rest)) : words = encode i ++ rest := by
  obtain ⟨op, operands, row, rfl, hrow, hlen, rfl, rfl⟩ := decode_eq_ok.1 h
  obtain ⟨-, htable⟩ := lookup_eq_some.1 hrow
  rw [encode, opcodeRow_fill_opcode htable, opcodeRow_fill_operandWords htable, BitVec.ofNat_toNat,
    BitVec.setWidth_eq]
  simp only [List.getD_cons_succ, List.cons_append, ← take_eq_map_getD 0 hlen, List.take_append_drop]

/-- A decoded instruction is one the configuration has. -/
theorem wellFormed_of_decode {cfg : IsaConfig} {words rest : List Word} {i : Instr}
    (h : decode cfg words = .ok (i, rest)) : i.wellFormed cfg = true := by
  obtain ⟨op, operands, row, rfl, hrow, -, rfl, -⟩ := decode_eq_ok.1 h
  exact wellFormed_of_lookup hrow _

/-- Settles O3: the configuration has the decoded instruction by `wellFormed_of_decode`, and the words are put together again by
`encode_append_of_decode`. -/
theorem decodedWordsAreTheEncoding : Obligations.DecodedWordsAreTheEncoding := by
  unfold Obligations.DecodedWordsAreTheEncoding
  exact fun cfg words rest i h => ⟨wellFormed_of_decode h, encode_append_of_decode h⟩

/-! ## The round trip -/

/-- Decoding an encoding, with any words after it, gives the instruction and those words. -/
theorem decode_encode_append {cfg : IsaConfig} {i : Instr} (h : i.wellFormed cfg = true) (rest : List Word) :
    decode cfg (encode i ++ rest) = .ok (i, rest) := by
  obtain ⟨hencode, -, -, row, hrow, hlen, hfill⟩ := Laws.EncodeShape.all i
  have hoperands : row.operands = i.operandWords.length := by
    simp only [encode, List.length_cons, ← hlen, Row.length] at hencode
    omega
  refine decode_eq_ok.2 ⟨_, i.operandWords ++ rest, row, rfl, (lookup_opcode h).trans hrow, ?operandsThere, ?filled, ?left⟩
  case operandsThere =>
    rw [List.length_append, hoperands]
    omega
  case filled =>
    refine hfill.symm.trans (Row.fill_congr fun k hk => ?_)
    rw [List.getD_append _ _ _ _ (by omega)]
  case left => rw [hoperands, List.drop_left]

/-- Settles O2: the words by `decode_encode_append`, and the bytes of the program file are those words. -/
theorem decodeOfEncodeIsTheInstruction : Obligations.DecodeOfEncodeIsTheInstruction := by
  unfold Obligations.DecodeOfEncodeIsTheInstruction
  refine fun cfg i h => ⟨decode_encode_append h, ?_⟩
  rw [decodeBytes, encodeBytes, wordsOfBytes_flatMap, ← List.append_nil (encode i), decode_encode_append h]

/-- Settles O1: each word sequence is the encoding of its instruction, which `JMP_CALL` has. -/
theorem decodeReadsTheSpecEncodings : Obligations.DecodeReadsTheSpecEncodings := by
  unfold Obligations.DecodeReadsTheSpecEncodings
  have decodes (i : Instr) (rest : List Word) : decode .jmpCall (encode i ++ rest) = .ok (i, rest) :=
    decode_encode_append (by cases i <;> rfl) rest
  exact ⟨decodes .halt [], decodes (.div 1) [], decodes (.movr 2 (-5)) [], decodes (.store 1 (-1)) [],
    decodes (.put 3) [7], decodes (.swap 0 3) [], decodes (.jz 12) [], decodes (.call 30) [], decodes .ret []⟩

end Sys2Proof

namespace Sys2Proof.Machine

variable {s : State}

/-! ## The step on a decoded instruction and on an illegal opcode word -/

/-- The instruction decoded at `IP` is the one fetched, when it lies whole below `stackLimit`. -/
theorem fetch_of_decode {words rest : List Word} {i : Instr} (hpos : 0 ≤ s.ip.toInt)
    (h : decode s.params.isaConfig words = .ok (i, rest)) (hwords : ∀ k < i.length, words.getD k 0 = s.codeWord k)
    (hfit : s.ip.toInt + i.length ≤ s.params.stackLimit) : fetch s = .ok i := by
  obtain ⟨op, operands, row, rfl, hrow, -, rfl, -⟩ := decode_eq_ok.1 h
  have hlen := opcodeRow_fill_length (lookup_eq_some.1 hrow).2 fun k => (op :: operands).getD k 0
  rw [hlen] at hwords hfit
  have hone : 1 ≤ row.length := Nat.le_add_right 1 _
  have hop : s.codeWord 0 = op := (hwords 0 hone).symm
  exact fetch_eq_ok.2 ⟨⟨hpos, by omega⟩, row, by rw [hop, hrow], hfit,
    Row.fill_congr fun k hk => (hwords k hk).symm⟩

/-- Settles O6: the three words at `IP` hold the longest instruction, so `fetch_of_decode` applies. -/
theorem stepRunsTheDecodedInstruction : Obligations.StepRunsTheDecodedInstruction := by
  unfold Obligations.StepRunsTheDecodedInstruction
  intro s i rest hs hpos h hfit
  obtain ⟨-, -, hthree, -⟩ := Laws.EncodeShape.all i
  refine step_of_fetch hs (fetch_of_decode hpos h (fun k hk => ?_) hfit)
  have hk3 : k < 3 := by omega
  interval_cases k <;> rfl

/-- Settles O9: such a word has no row, so the fetch fails. -/
theorem illegalOpcodeSetsIllegalInstruction : Obligations.IllegalOpcodeSetsIllegalInstruction := by
  unfold Obligations.IllegalOpcodeSetsIllegalInstruction
  intro s hs hr hop
  have hstep : step s = .next (s.fail .illegalInstruction) := step_of_lookup_eq_none hs hr (lookup_eq_none.2 hop)
  exact ⟨hstep, transact_step_of_stopped hstep (by simp)⟩

end Sys2Proof.Machine
end

section
/-! PROOF. Frames of the 26 instructions (spec/10_state.md, spec/20_memory.md section 1, spec/44_io.md): each by cases on what an
instruction can do, `exec_cases`. -/

namespace Sys2Proof.Machine

variable {s t : State} {i : Instr}

/-! ## The general registers -/

/-- Writing a register leaves the general registers whose selector is another word. -/
theorem State.reg_setReg_of_selector_ne {r q : Reg} (v : Word) (h : ¬r.selector = q.selector) :
    (s.setReg r v).reg q = s.reg q :=
  State.reg_setReg_ne _ _ _ _ fun hq => h (hq ▸ rfl)

@[simp] theorem Handled.commit_reg (len : Nat) (hd : Handled) (q : Reg) : (hd.commit len).reg q = hd.state.reg q := by
  obtain ⟨signal, s⟩ := hd
  cases signal <;> rfl

/-- An input request writes the selected register and C at most. -/
theorem receive_reg_other {r q : Reg} (ans : InputAnswer Word) (h : ¬(r.selector = q.selector ∨ q = .C)) :
    (receive r ans s).state.reg q = s.reg q := by
  obtain ⟨hr, hC⟩ := not_or.1 h
  cases ans with
  | value v => exact State.reg_setReg_of_selector_ne v hr
  | endOfInput => exact (State.reg_setReg_of_selector_ne (-1) hr).trans (State.reg_setReg_ne _ _ _ _ hC)
  | malformed => exact State.fail_reg ..

/-- Writing A leaves the other general registers. -/
theorem State.reg_withA {q : Reg} (v ip : Word) (h : q ≠ .A) : ({ s with a := v, ip := ip } : State).reg q = s.reg q :=
  State.reg_setReg_ne s .A q v h

theorem exec_reg_of_not_mayWriteReg {q : Reg} (h : exec i s = .next t) (hq : ¬mayWriteReg i q) : t.reg q = s.reg q := by
  rcases exec_cases h with ⟨w, -, -, rfl⟩ | he
  · exact State.fail_reg ..
  cases i
  case nop | halt | loop | jmp | jz | jnz | jgt =>
    obtain rfl : t = _ := he
    rfl
  case add | sub | mul =>
    obtain ⟨r, -, rfl⟩ := he
    exact State.reg_withA _ _ hq
  case div =>
    obtain ⟨r, -, ⟨-, rfl⟩ | ⟨-, -, -, rfl⟩ | ⟨-, -, rfl⟩⟩ := he
    · exact State.fail_reg ..
    · exact State.reg_withA _ _ hq
    · exact State.reg_withA _ _ hq
  case inc | dec | movr =>
    obtain ⟨r, rfl, rfl⟩ := he
    exact State.reg_setReg_of_selector_ne _ hq
  case load | pop =>
    obtain ⟨r, rfl, ⟨-, rfl⟩ | ⟨-, -, rfl⟩⟩ := he
    · exact State.fail_reg ..
    · exact State.reg_setReg_of_selector_ne _ hq
  case inp | get =>
    obtain ⟨r, rfl, rfl⟩ := he
    exact (Handled.commit_reg ..).trans (receive_reg_other _ hq)
  case swap =>
    obtain ⟨r1, r2, rfl, rfl, rfl⟩ := he
    obtain ⟨h1, h2⟩ := not_or.1 hq
    exact (State.reg_setReg_of_selector_ne _ h2).trans (State.reg_setReg_of_selector_ne _ h1)
  case cmp =>
    obtain ⟨r1, r2, -, -, rfl⟩ := he
    rfl
  case out =>
    obtain ⟨r, -, rfl⟩ := he
    rfl
  case put => obtain ⟨r, -, ⟨-, rfl⟩ | ⟨-, rfl⟩⟩ := he <;> rfl
  case store | push => obtain ⟨r, -, ⟨-, rfl⟩ | ⟨-, -, rfl⟩⟩ := he <;> rfl
  case call | ret => obtain ⟨-, rfl⟩ | ⟨-, -, rfl⟩ := he <;> rfl

/-- Settles O31, by `exec_reg_of_not_mayWriteReg`. -/
theorem onlyDestinationRegistersChange : Obligations.OnlyDestinationRegistersChange := by
  unfold Obligations.OnlyDestinationRegistersChange
  exact fun i s t r h hr => exec_reg_of_not_mayWriteReg h hr

/-! ## The stack pointer, the ports and the parameters -/

/-- The stack sizes an instruction can leave: the one it found, one more by a push with room, or one less by a pop of a word. -/
inductive StackSizeAfter (i : Instr) (s : State) : Word → Prop where
  | kept : StackSizeAfter i s s.stackSize
  | counted (hi : (∃ w, i = .push w) ∨ ∃ x, i = .call x) (room : s.stackSize.toInt < s.params.stackCapacity) :
      StackSizeAfter i s (s.stackSize + 1)
  | uncounted (hi : (∃ w, i = .pop w) ∨ i = .ret) (nonempty : s.stackSize ≠ 0) : StackSizeAfter i s (s.stackSize - 1)

/-- The ports an instruction can leave: the ones it found, those after one request, or those after one event. -/
inductive PortsAfter (i : Instr) (s : State) : Ports → Prop where
  | kept : PortsAfter i s s.ports
  | intAsked (w : Word) (hi : i = .inp w) : PortsAfter i s s.ports.inInt.2
  | charAsked (w : Word) (hi : i = .get w) : PortsAfter i s s.ports.inChar.2
  | emitted (e : OutputEvent) (hi : (∃ w, i = .out w) ∨ ∃ w, i = .put w) : PortsAfter i s (s.emit e).ports

/-- What an instruction may do to the fields that are neither registers nor Memory nor the status. -/
structure RestAfter (i : Instr) (s t : State) : Prop where
  params : t.params = s.params
  stackSize : StackSizeAfter i s t.stackSize
  ports : PortsAfter i s t.ports

/-- An instruction that leaves the three fields alone. -/
theorem RestAfter.of_kept (hp : t.params = s.params := by rfl) (hn : t.stackSize = s.stackSize := by rfl)
    (hports : t.ports = s.ports := by rfl) : RestAfter i s t :=
  ⟨hp, hn ▸ .kept, hports ▸ .kept⟩

/-- The instructions that write a register and `IP`. -/
theorem RestAfter.of_setReg (r : Reg) (v ip : Word) : RestAfter i s { s.setReg r v with ip := ip } :=
  .of_kept (State.setReg_params ..) (State.setReg_stackSize ..) (State.setReg_ports ..)

@[simp] theorem Handled.commit_params (len : Nat) (hd : Handled) : (hd.commit len).params = hd.state.params := by
  obtain ⟨signal, s⟩ := hd
  cases signal <;> rfl
@[simp] theorem Handled.commit_stackSize (len : Nat) (hd : Handled) :
    (hd.commit len).stackSize = hd.state.stackSize := by
  obtain ⟨signal, s⟩ := hd
  cases signal <;> rfl
@[simp] theorem Handled.commit_ports (len : Nat) (hd : Handled) : (hd.commit len).ports = hd.state.ports := by
  obtain ⟨signal, s⟩ := hd
  cases signal <;> rfl
@[simp] theorem receive_params (r : Reg) (ans : InputAnswer Word) (s : State) : (receive r ans s).state.params = s.params := by
  cases ans <;> simp
@[simp] theorem receive_stackSize (r : Reg) (ans : InputAnswer Word) (s : State) :
    (receive r ans s).state.stackSize = s.stackSize := by
  cases ans <;> simp
@[simp] theorem receive_ports (r : Reg) (ans : InputAnswer Word) (s : State) : (receive r ans s).state.ports = s.ports := by
  cases ans <;> simp

/-- The delivery of an answer leaves the ports as the request left them. -/
theorem RestAfter.of_receive (r : Reg) (ans : InputAnswer Word) {ports : Ports} (hports : PortsAfter i s ports) :
    RestAfter i s ((receive r ans { s with ports := ports }).commit 2) := by
  refine ⟨by simp, ?_, by simpa using hports⟩
  rw [Handled.commit_stackSize, receive_stackSize]
  exact .kept

theorem exec_restAfter (h : exec i s = .next t) : RestAfter i s t := by
  rcases exec_cases h with ⟨w, -, -, rfl⟩ | he
  · exact .of_kept
  cases i
  case nop | halt | loop | jmp | jz | jnz | jgt =>
    obtain rfl : t = _ := he
    exact .of_kept
  case add | sub | mul =>
    obtain ⟨r, -, rfl⟩ := he
    exact .of_kept
  case div => obtain ⟨r, -, ⟨-, rfl⟩ | ⟨-, -, -, rfl⟩ | ⟨-, -, rfl⟩⟩ := he <;> exact .of_kept
  case inc | dec | movr =>
    obtain ⟨r, -, rfl⟩ := he
    exact .of_setReg ..
  case load =>
    obtain ⟨r, -, ⟨-, rfl⟩ | ⟨-, -, rfl⟩⟩ := he
    · exact .of_kept
    · exact .of_setReg ..
  case store => obtain ⟨r, -, ⟨-, rfl⟩ | ⟨-, -, rfl⟩⟩ := he <;> exact .of_kept
  case swap =>
    obtain ⟨r1, r2, -, -, rfl⟩ := he
    exact .of_kept (State.exchange_params ..) (State.exchange_stackSize ..) (State.exchange_ports ..)
  case cmp =>
    obtain ⟨r1, r2, -, -, rfl⟩ := he
    exact .of_kept
  case inp w =>
    obtain ⟨r, -, rfl⟩ := he
    exact .of_receive _ _ (.intAsked w rfl)
  case get w =>
    obtain ⟨r, -, rfl⟩ := he
    exact .of_receive _ _ (.charAsked w rfl)
  case out w =>
    obtain ⟨r, -, rfl⟩ := he
    exact ⟨rfl, .kept, .emitted _ (.inl ⟨w, rfl⟩)⟩
  case put w =>
    obtain ⟨r, -, ⟨-, rfl⟩ | ⟨-, rfl⟩⟩ := he
    · exact .of_kept
    · exact ⟨rfl, .kept, .emitted _ (.inr ⟨w, rfl⟩)⟩
  case push w =>
    obtain ⟨r, -, ⟨-, rfl⟩ | ⟨hroom, -, rfl⟩⟩ := he
    · exact .of_kept
    · exact ⟨rfl, .counted (.inl ⟨w, rfl⟩) hroom, .kept⟩
  case call x =>
    obtain ⟨-, rfl⟩ | ⟨hroom, -, rfl⟩ := he
    · exact .of_kept
    · exact ⟨rfl, .counted (.inr ⟨x, rfl⟩) hroom, .kept⟩
  case pop w =>
    obtain ⟨r, -, ⟨-, rfl⟩ | ⟨hne, -, rfl⟩⟩ := he
    · exact .of_kept
    · exact ⟨State.setReg_params .., .uncounted (.inl ⟨w, rfl⟩) hne, (State.setReg_ports s r _).symm ▸ .kept⟩
  case ret =>
    obtain ⟨-, rfl⟩ | ⟨hne, -, rfl⟩ := he
    · exact .of_kept
    · exact ⟨rfl, .uncounted (.inr rfl) hne, .kept⟩

theorem exec_params (h : exec i s = .next t) : t.params = s.params := (exec_restAfter h).params

/-! ## The four parts of the ports -/

@[simp] theorem Ports.inInt_charAnswers (p : Ports) : p.inInt.2.charAnswers = p.charAnswers := by
  unfold Ports.inInt; split <;> rfl
@[simp] theorem Ports.inChar_intAnswers (p : Ports) : p.inChar.2.intAnswers = p.intAnswers := by
  unfold Ports.inChar; split <;> rfl

theorem PortsAfter.output {p : Ports} (h : PortsAfter i s p) (hne : p.output ≠ s.ports.output) :
    (∃ w, i = .out w) ∨ ∃ w, i = .put w := by
  cases h with
  | kept => exact absurd rfl hne
  | intAsked => exact absurd (Ports.inInt_output _) hne
  | charAsked => exact absurd (Ports.inChar_output _) hne
  | emitted e hi => exact hi

theorem PortsAfter.intAnswers {p : Ports} (h : PortsAfter i s p) (hne : p.intAnswers ≠ s.ports.intAnswers) :
    ∃ w, i = .inp w := by
  cases h with
  | kept | emitted => exact absurd rfl hne
  | intAsked w hi => exact ⟨w, hi⟩
  | charAsked => exact absurd (Ports.inChar_intAnswers _) hne

theorem PortsAfter.charAnswers {p : Ports} (h : PortsAfter i s p) (hne : p.charAnswers ≠ s.ports.charAnswers) :
    ∃ w, i = .get w := by
  cases h with
  | kept | emitted => exact absurd rfl hne
  | intAsked => exact absurd (Ports.inInt_charAnswers _) hne
  | charAsked w hi => exact ⟨w, hi⟩

theorem PortsAfter.draws {p : Ports} (h : PortsAfter i s p) (hne : p.draws ≠ s.ports.draws) :
    (∃ w, i = .inp w) ∨ ∃ w, i = .get w := by
  cases h with
  | kept | emitted => exact absurd rfl hne
  | intAsked w hi => exact .inl ⟨w, hi⟩
  | charAsked w hi => exact .inr ⟨w, hi⟩

theorem StackSizeAfter.moved {n : Word} (h : StackSizeAfter i s n) (hne : n ≠ s.stackSize) :
    (∃ w, i = .push w) ∨ (∃ w, i = .pop w) ∨ (∃ x, i = .call x) ∨ i = .ret := by
  cases h with
  | kept => exact absurd rfl hne
  | counted hi => exact hi.imp id fun hcall => .inr (.inl hcall)
  | uncounted hi => exact .inr (hi.imp id .inr)

/-- Settles O32: `exec_restAfter` for `stackSize`, the ports and the parameters, `exec_result_of_ne_cmp` for the result register,
`exec_status_cases` for the status. -/
theorem specialRegistersChangeOnlyWhereNamed : Obligations.SpecialRegistersChangeOnlyWhereNamed := by
  unfold Obligations.SpecialRegistersChangeOnlyWhereNamed
  intro i s t h
  obtain ⟨hparams, hstack, hports⟩ := exec_restAfter h
  refine ⟨hstack.moved, fun hne => ?result, hports.output, hports.intAnswers, hports.charAnswers, hports.draws, hparams,
    ?status⟩
  case result =>
    by_contra hcmp
    exact hne (exec_result_of_ne_cmp h fun w1 w2 hi => hcmp ⟨w1, w2, hi⟩)
  case status => simpa [handlerStatuses] using exec_status_cases h

/-! ## Memory -/

/-- Settles O30: by `exec_mem_cases`, the one word written is the one at the store slot. -/
theorem instructionsStoreOnlyToTheirSlot : Obligations.InstructionsStoreOnlyToTheirSlot := by
  unfold Obligations.InstructionsStoreOnlyToTheirSlot
  intro i s t h
  rcases exec_mem_cases h with hmem | ⟨written, v, hwritten, ⟨h0, -⟩, -, hmem⟩
  · rw [hmem]
    exact ⟨fun _ _ => rfl, fun _ _ _ _ => rfl⟩
  · rw [hwritten, hmem]
    refine ⟨nofun, fun slot hslot a ha => Memory.readByte_writeWord_outside _ _ _ _ ?_⟩
    obtain rfl := Option.some.inj hslot
    omega

end Sys2Proof.Machine
end

section
/-! PROOF. The canonical form of Memory (log 26): its entries are the bytes that do not read as unlisted, so equal reads are equal
data; and where an entry can stand. -/

namespace Sys2Proof.Machine

variable {m m' : Memory}

theorem Memory.readByte_of_not_listed {k : Nat} (h : ∀ cell ∈ m, cell.1 ≠ k) : m.readByte k = unlisted := by
  induction m with
  | nil => rfl
  | cons cell rest ih =>
    obtain ⟨hcell, hrest⟩ := List.forall_mem_cons.1 h
    rw [Memory.readByte, if_neg hcell, ih hrest]

/-- The entry at an address is what the address reads as. -/
theorem Memory.readByte_of_mem (hwf : m.wf) {cell : Host.Cell} (h : cell ∈ m) : m.readByte cell.1 = cell.2 := by
  induction m with
  | nil => exact absurd h List.not_mem_nil
  | cons first rest ih =>
    obtain ⟨hrising, hlisted⟩ := hwf
    obtain ⟨hfirst, hrest⟩ := List.pairwise_cons.1 hrising
    rcases List.mem_cons.1 h with rfl | hmem
    · exact if_pos rfl
    · rw [Memory.readByte, if_neg (hfirst cell hmem).ne]
      exact ih ⟨hrest, fun c hc => hlisted c (List.mem_cons_of_mem _ hc)⟩ hmem

/-- The entries of a canonical memory, by what it reads. -/
theorem Memory.mem_iff_readByte (hwf : m.wf) (cell : Host.Cell) :
    cell ∈ m ↔ cell.2 ≠ unlisted ∧ m.readByte cell.1 = cell.2 := by
  refine ⟨fun h => ⟨hwf.2 cell h, Memory.readByte_of_mem hwf h⟩, fun ⟨hlisted, hread⟩ => ?_⟩
  by_contra hnot
  refine hlisted (hread.symm.trans (Memory.readByte_of_not_listed fun c hc haddr => hnot ?_))
  have hbyte : c.2 = cell.2 := by rw [← Memory.readByte_of_mem hwf hc, haddr, hread]
  exact Prod.ext haddr hbyte ▸ hc

theorem Memory.ext_readByte (hwf : m.wf) (hwf' : m'.wf) (h : ∀ a, m.readByte a = m'.readByte a) : m = m' := by
  have hperm : m.Perm m' := by
    refine (List.perm_ext_iff_of_nodup (hwf.1.imp ?_) (hwf'.1.imp ?_)).2 fun cell => ?_
    · rintro x y hlt rfl
      exact lt_irrefl _ hlt
    · rintro x y hlt rfl
      exact lt_irrefl _ hlt
    · rw [Memory.mem_iff_readByte hwf, Memory.mem_iff_readByte hwf', h]
  exact hperm.eq_of_pairwise (fun _ _ _ _ hlt hgt => absurd hgt (lt_asymm hlt)) hwf.1 hwf'.1

/-- Settles O20: two memories that read alike list the same entries, and both list them in rising order. -/
theorem canonicalMemoryIsDeterminedByItsReads : Obligations.CanonicalMemoryIsDeterminedByItsReads := by
  unfold Obligations.CanonicalMemoryIsDeterminedByItsReads
  exact fun m m' => Memory.ext_readByte

/-- Zeroing a range twice is zeroing it once. -/
theorem Memory.zeroWords_zeroWords (m : Memory) (lo hi : Nat) : (m.zeroWords lo hi).zeroWords lo hi = m.zeroWords lo hi := by
  simp only [Memory.zeroWords, List.filter_filter, Bool.and_self]

end Sys2Proof.Machine
end

section
/-! PROOF. The model's invariant (spec/10_state.md section 10): every instruction, every step and every reset keeps it. -/

namespace Sys2Proof.Machine

variable {s t : State} {i : Instr}

/-! ## Memory and the stack pointer -/

/-- The part of the invariant that is about Memory, for any memory of a unit with these parameters. -/
structure MemorySound (p : Params) (m : Memory) : Prop where
  wf : m.wf
  within : ∀ cell ∈ m, cell.1 < 4 * p.memWords
  boundaryZero : m.readWord p.stackLimit.toNat = 0

theorem State.Inv.memorySound (hi : s.Inv) : MemorySound s.params s.mem := ⟨hi.memWf, hi.memWithin, hi.boundaryZero⟩

/-- A write to a slot of the stack region, which the boundary word is not in. -/
theorem MemorySound.writeWord {p : Params} {m : Memory} {slot : Int} (h : MemorySound p m) (hg : p.wellFormed)
    (hlo : p.stackLimit < slot) (hhi : slot < p.memWords) (v : Word) : MemorySound p (m.writeWord slot.toNat v) := by
  have hlimit := Params.stackLimit_nonneg hg
  refine ⟨Memory.writeWord_wf _ _ _ h.wf, fun cell hcell => ?_, ?_⟩
  · rcases Memory.mem_writeWord hcell with hold | ⟨-, hnew⟩
    · exact h.within cell hold
    · omega
  · rw [Memory.readWord_writeWord_ne _ _ (by omega), h.boundaryZero]

theorem exec_memorySound (hi : s.Inv) (h : exec i s = .next t) : MemorySound s.params t.mem := by
  rcases exec_mem_cases h with hmem | ⟨slot, v, -, ⟨-, hhi⟩, hvalid, hmem⟩
  · exact hmem ▸ hi.memorySound
  · exact hmem ▸ hi.memorySound.writeWord hi.geometry (hvalid hi).1 hhi v

theorem exec_stackSize_bounds (hi : s.Inv) (h : exec i s = .next t) :
    0 ≤ t.stackSize.toInt ∧ t.stackSize.toInt ≤ s.params.stackCapacity := by
  have hnonneg := hi.stackNonneg
  have hbounded := hi.stackBounded
  have hafter := (exec_restAfter h).stackSize
  generalize t.stackSize = n at hafter
  cases hafter with
  | kept => exact ⟨hnonneg, hbounded⟩
  | counted _ hroom =>
    rw [State.toInt_stackSize_add_one hi hroom]
    omega
  | uncounted _ hne =>
    have hpos := State.stackSize_pos hi hne
    rw [State.toInt_stackSize_sub_one hi hpos]
    omega

/-! ## Instructions and steps -/

/-- A fetched instruction is one the unit's configuration has. -/
theorem fetch_wellFormed (h : fetch s = .ok i) : i.wellFormed s.params.isaConfig = true := by
  obtain ⟨-, row, hrow, -, rfl⟩ := fetch_eq_ok.1 h
  exact wellFormed_of_lookup hrow _

/-- The invariant is kept by every instruction the configuration has; `BASE` has no `cmp`, so its result stays 0. -/
theorem exec_keeps_inv (hi : s.Inv) (hwf : i.wellFormed s.params.isaConfig = true) (h : exec i s = .next t) : t.Inv := by
  have hparams := exec_params h
  obtain ⟨hnonneg, hbounded⟩ := exec_stackSize_bounds hi h
  obtain ⟨hcanonical, hwithin, hboundary⟩ := exec_memorySound hi h
  refine ⟨hparams ▸ hi.geometry, hnonneg, hparams ▸ hbounded, hcanonical, hparams ▸ hwithin, hparams ▸ hboundary,
    fun hbase => ?_⟩
  rw [hparams] at hbase
  rw [exec_result_of_ne_cmp h ?_, hi.baseResult hbase]
  rintro w1 w2 rfl
  rw [hbase] at hwf
  exact absurd hwf (by simp [Instr.wellFormed, Instr.extension, IsaConfig.has])

/-- The invariant says nothing of the status. -/
theorem State.Inv.fail (hi : s.Inv) (st : Status) : (s.fail st).Inv :=
  ⟨hi.geometry, hi.stackNonneg, hi.stackBounded, hi.memWf, hi.memWithin, hi.boundaryZero, hi.baseResult⟩

theorem step_keeps_inv (hi : s.Inv) (h : step s = .next t) : t.Inv := by
  rcases step_cases s with ⟨-, hstep⟩ | ⟨-, i, hfetch, hstep⟩ | ⟨-, st, -, hstep⟩
  · obtain rfl := Host.Outcome.next.inj (hstep.symm.trans h)
    exact hi
  · exact exec_keeps_inv hi (fetch_wellFormed hfetch) (hstep.symm.trans h)
  · obtain rfl := Host.Outcome.next.inj (hstep.symm.trans h)
    exact hi.fail st

theorem step_params (h : step s = .next t) : t.params = s.params := by
  rcases step_cases s with ⟨-, hstep⟩ | ⟨-, i, -, hstep⟩ | ⟨-, st, -, hstep⟩
  · exact Host.Outcome.next.inj (h.symm.trans hstep) ▸ rfl
  · exact exec_params (hstep.symm.trans h)
  · exact Host.Outcome.next.inj (h.symm.trans hstep) ▸ rfl

/-- Settles O15, by `step_keeps_inv`. -/
theorem stepKeepsTheInvariant : Obligations.StepKeepsTheInvariant := by
  unfold Obligations.StepKeepsTheInvariant
  exact fun s t => step_keeps_inv

/-! ## Reset -/

/-- Reset makes a unit sound whose parameters are legal and whose Memory is canonical and within bounds. -/
theorem State.inv_resetUnit (hg : s.params.wellFormed) (hwf : s.mem.wf)
    (hwithin : ∀ cell ∈ s.mem, cell.1 < 4 * s.params.memWords) : s.resetUnit.Inv where
  geometry := hg
  stackNonneg := by simp
  stackBounded := by simp
  memWf := Memory.zeroWords_wf _ _ _ hwf
  memWithin cell hcell := hwithin cell (Memory.mem_zeroWords hcell)
  boundaryZero := by
    have hlimit := Params.stackLimit_nonneg hg
    exact State.readWord_resetUnit_stack (Int.self_le_toNat _) (by
      have := s.params.stackLimit_le_stackBottom
      simp only [State.resetUnit_params]
      omega)
  baseResult _ := State.resetUnit_result s

theorem State.Inv.resetUnit (hi : s.Inv) : s.resetUnit.Inv := State.inv_resetUnit hi.geometry hi.memWf hi.memWithin

/-- Settles O16: it is its own reset, and its memory lists nothing. -/
theorem resetStateMeetsTheInvariant : Obligations.ResetStateMeetsTheInvariant := by
  unfold Obligations.ResetStateMeetsTheInvariant
  have hreset : State.reset.resetUnit = State.reset := rfl
  rw [← hreset]
  exact State.inv_resetUnit (by decide) Memory.wf_empty (fun _ h => absurd h List.not_mem_nil)

end Sys2Proof.Machine
end

section
/-! PROOF. The host's transactions (spec/70_reset_and_hazards.md sections 1, 2): what a transaction can do, the invariant and the
baseline of reset over a whole session, and create. -/

namespace Sys2Proof.Machine

variable {s t : State}

/-! ## What a transaction does -/

/-- The unit before and after a transaction that has a meaning. -/
inductive Transition : Option State → Request → Option State → Prop where
  | create {image : List Word} {params : Params} {ports : Ports} {s : State} (h : create image params ports = .next s) :
      Transition none (.create image params ports) (some s)
  | reset (s : State) : Transition (some s) .reset (some s.resetUnit)
  | destroy (s : State) : Transition (some s) .destroy none
  | step {s t : State} (h : step s = .next t) : Transition (some s) .step (some t)
  | status (s : State) : Transition (some s) .status (some s)
  | peek (s : State) (name : Char) : Transition (some s) (.peek name) (some s)

theorem transact_transition {unit unit' : Option State} {req : Request} {reply : Reply}
    (h : transact unit req = .next (unit', reply)) : Transition unit req unit' := by
  cases unit with
  | none =>
    cases req with
    | create image params ports =>
      cases hcreate : create image params ports with
      | next s =>
        simp only [transact, hcreate] at h
        cases h
        exact .create hcreate
      | fault | refused =>
        simp only [transact, hcreate] at h
        cases h
    | reset | destroy | step | status | peek => cases h
  | some s =>
    cases req with
    | create => cases h
    | reset => cases h; exact .reset s
    | destroy => cases h; exact .destroy s
    | status => cases h; exact .status s
    | peek name => cases h; exact .peek s name
    | step =>
      cases hstep : step s with
      | next t =>
        rw [transact_step_of_next hstep] at h
        cases h
        exact .step hstep
      | fault | refused =>
        simp only [transact, hstep] at h
        cases h

/-- What every transaction of a session keeps, the session keeps. -/
theorem session_induction {P : Option State → Prop} {reqs : List Request}
    (hreqs : ∀ req ∈ reqs, ∀ u u', P u → Transition u req u' → P u') {unit unit' : Option State} {replies : List Reply}
    (hunit : P unit) (h : session unit reqs = .next (unit', replies)) : P unit' := by
  induction reqs generalizing unit replies with
  | nil => cases h; exact hunit
  | cons req reqs ih =>
    obtain ⟨hreq, hrest⟩ := List.forall_mem_cons.1 hreqs
    cases htransact : transact unit req with
    | fault | refused => simp only [session, htransact] at h; cases h
    | next after =>
      obtain ⟨between, reply⟩ := after
      have hbetween : P between := hreq _ _ hunit (transact_transition htransact)
      cases hsession : session between reqs with
      | fault | refused => simp only [session, htransact, hsession] at h; cases h
      | next last =>
        simp only [session, htransact, hsession] at h
        cases h
        exact ih hrest hbetween hsession

/-! ## Create -/

/-- The unit that create resets: the parameters wired, and Memory with the image at its start. -/
def wiredUnit (image : List Word) (params : Params) (ports : Ports) : State where
  a := 0
  b := 0
  c := 0
  d := 0
  ip := 0
  status := .ok
  stackSize := 0
  result := 0
  mem := Memory.placeWords [] 0 image
  params := params
  ports := ports

theorem create_eq_next {image : List Word} {params : Params} {ports : Ports} : create image params ports = .next s ↔
    (params.wellFormed ∧ (image.length : Int) ≤ params.stackLimit) ∧ s = (wiredUnit image params ports).resetUnit := by
  unfold create
  split_ifs with h
  · rw [Host.Outcome.next.injEq, eq_comm]
    exact (and_iff_right h).symm
  · exact ⟨nofun, fun ⟨hlegal, _⟩ => absurd hlegal h⟩

theorem inv_of_create {image : List Word} {params : Params} {ports : Ports} (h : create image params ports = .next s) :
    s.Inv := by
  obtain ⟨⟨hg, hfit⟩, rfl⟩ := create_eq_next.1 h
  refine State.inv_resetUnit hg (Memory.placeWords_wf _ _ _ Memory.wf_empty) fun cell hcell => ?_
  have hlimit := params.stackLimit_le_stackBottom
  have hbottom := params.stackBottom_lt
  rcases Memory.mem_placeWords hcell with hnil | ⟨-, hlt⟩
  · exact absurd hnil List.not_mem_nil
  · simp only [wiredUnit]
    omega

/-- The image read back: its words, then zeros. -/
theorem readWord_placeWords_empty (image : List Word) (k : Nat) :
    (Memory.placeWords [] 0 image).readWord k = image.getD k 0 := by
  by_cases hk : k < image.length
  · have hread := Memory.readWord_placeWords [] 0 k image Memory.wf_empty hk
    rw [Nat.zero_add] at hread
    simpa [hk] using hread
  · rw [Memory.readWord_placeWords_outside _ _ _ _ (by omega), Memory.readWord_empty, List.getD_eq_default _ _ (by omega)]

/-- Reset of a created unit leaves the image in place, because it lies below `stackLimit`. -/
theorem readWord_resetUnit_wiredUnit {image : List Word} {params : Params} (ports : Ports)
    (hfit : (image.length : Int) ≤ params.stackLimit) (k : Nat) :
    (wiredUnit image params ports).resetUnit.mem.readWord k = image.getD k 0 := by
  by_cases hk : params.stackLimit ≤ k ∧ (k : Int) ≤ params.stackBottom
  · rw [State.readWord_resetUnit_stack (s := wiredUnit image params ports) hk.1 hk.2, List.getD_eq_default _ _ (by omega)]
  · have houtside : k < params.stackLimit.toNat ∨ (params.stackBottom + 1).toNat ≤ k := by omega
    exact (Memory.readWord_zeroWords_outside _ houtside).trans (readWord_placeWords_empty image k)

theorem State.resetUnit_resetUnit (s : State) : s.resetUnit.resetUnit = s.resetUnit := by
  have hmem : s.resetUnit.resetUnit.mem = s.resetUnit.mem := Memory.zeroWords_zeroWords ..
  calc s.resetUnit.resetUnit = { s.resetUnit with mem := s.resetUnit.resetUnit.mem } := rfl
    _ = s.resetUnit := by rw [hmem]

/-- Settles O24: create is reset of the wired unit, and reset of a unit right after reset does nothing. -/
theorem createWiresTheImageAndResets : Obligations.CreateWiresTheImageAndResets := by
  unfold Obligations.CreateWiresTheImageAndResets
  refine fun image params ports => ⟨fun hg hfit => ?legal, fun hbad => ?refused⟩
  case legal =>
    exact ⟨_, create_eq_next.2 ⟨⟨hg, hfit⟩, rfl⟩, rfl, rfl, State.resetUnit_reg _, rfl, rfl, rfl, rfl,
      readWord_resetUnit_wiredUnit ports hfit, State.resetUnit_resetUnit _⟩
  case refused =>
    refine if_neg fun ⟨hg, hfit⟩ => ?_
    rcases hbad with hgeometry | hlong
    · exact hgeometry hg
    · omega

/-! ## The invariant over a session -/

theorem transition_keeps_inv {unit unit' : Option State} {req : Request} (hunit : ∀ s, unit = some s → s.Inv)
    (h : Transition unit req unit') : ∀ t, unit' = some t → t.Inv := by
  rintro t rfl
  cases h with
  | create hcreate => exact inv_of_create hcreate
  | reset s => exact (hunit s rfl).resetUnit
  | step hstep => exact step_keeps_inv (hunit _ rfl) hstep
  | status | peek => exact hunit _ rfl

/-- Settles O17: by `session_induction`. -/
theorem everySessionKeepsTheInvariant : Obligations.EverySessionKeepsTheInvariant := by
  unfold Obligations.EverySessionKeepsTheInvariant
  intro unit unit' reqs replies hunit h
  exact session_induction (P := fun u => ∀ s, u = some s → s.Inv)
    (fun _ _ _ _ hu htransition => transition_keeps_inv hu htransition) hunit h

/-! ## The baseline of reset -/

/-- What a session cannot change: the unit is sound, has the parameters of `s`, and holds the bytes of `s` below `stackLimit`. -/
structure SameBaseline (s t : State) : Prop where
  inv : t.Inv
  params : t.params = s.params
  program : ∀ a : Nat, (a : Int) < 4 * s.params.stackLimit → t.mem.readByte a = s.mem.readByte a

/-- An instruction stores above `stackLimit` only. -/
theorem exec_readByte_program {i : Instr} {a : Nat} (hi : s.Inv) (h : exec i s = .next t)
    (ha : (a : Int) < 4 * s.params.stackLimit) : t.mem.readByte a = s.mem.readByte a := by
  rcases exec_mem_cases h with hmem | ⟨slot, v, -, ⟨h0, -⟩, hvalid, hmem⟩
  · rw [hmem]
  · have hlo := (hvalid hi).1
    rw [hmem, Memory.readByte_writeWord_outside _ _ _ _ (by omega)]

theorem step_sameBaseline (hi : s.Inv) (h : step s = .next t) : SameBaseline s t := by
  refine ⟨step_keeps_inv hi h, step_params h, fun a ha => ?_⟩
  rcases step_cases s with ⟨-, hstep⟩ | ⟨-, i, -, hstep⟩ | ⟨-, st, -, hstep⟩
  · rw [Host.Outcome.next.inj (h.symm.trans hstep)]
  · exact exec_readByte_program hi (hstep.symm.trans h) ha
  · rw [Host.Outcome.next.inj (h.symm.trans hstep), State.fail_mem]

theorem SameBaseline.trans {u : State} (h : SameBaseline s t) (h' : SameBaseline t u) : SameBaseline s u :=
  ⟨h'.inv, h'.params.trans h.params, fun a ha => (h'.program a (h.params ▸ ha)).trans (h.program a ha)⟩

/-- No transaction but destroy changes the baseline. -/
theorem transition_sameBaseline {u : State} {req : Request} {unit' : Option State} (h : SameBaseline s u)
    (hreq : req ≠ .destroy) (htransition : Transition (some u) req unit') : ∃ t, unit' = some t ∧ SameBaseline s t := by
  cases htransition with
  | reset =>
    exact ⟨_, rfl, h.trans ⟨h.inv.resetUnit, rfl, fun a ha => State.readByte_resetUnit_outside (.inl ha)⟩⟩
  | destroy => exact absurd rfl hreq
  | step hstep => exact ⟨_, rfl, h.trans (step_sameBaseline h.inv hstep)⟩
  | status | peek => exact ⟨_, rfl, h⟩

/-- Reset forgets all but the baseline and the ports; above Memory nothing is listed. -/
theorem SameBaseline.resetUnit_eq (h : SameBaseline s t) (hi : s.Inv) :
    t.resetUnit = { s.resetUnit with ports := t.ports } := by
  have hmem : t.resetUnit.mem = s.resetUnit.mem := by
    refine Memory.ext_readByte h.inv.resetUnit.memWf hi.resetUnit.memWf fun a => ?_
    rw [State.resetUnit_mem, State.resetUnit_mem, Memory.readByte_zeroWords, Memory.readByte_zeroWords, h.params]
    by_cases hprogram : (a : Int) < 4 * s.params.stackLimit
    · rw [h.program a hprogram]
    by_cases hregion : a < 4 * (s.params.stackBottom + 1).toNat
    · rw [if_pos (by omega), if_pos (by omega)]
    · rw [Params.stackBottom_eq] at hregion
      rw [Memory.readByte_of_not_listed (m := t.mem) fun cell hcell => ?_,
        Memory.readByte_of_not_listed (m := s.mem) fun cell hcell => ?_]
      · have hwithin := hi.memWithin cell hcell
        omega
      · have hwithin := h.inv.memWithin cell hcell
        rw [h.params] at hwithin
        omega
  calc t.resetUnit = { s.resetUnit with mem := t.resetUnit.mem, params := t.params, ports := t.ports } := rfl
    _ = { s.resetUnit with ports := t.ports } := by rw [hmem, h.params]; rfl

/-- Settles O22: by `session_induction` the unit has the baseline it started with, and that is all reset looks at. -/
theorem resetAfterAnySessionRestoresTheBaseline : Obligations.ResetAfterAnySessionRestoresTheBaseline := by
  unfold Obligations.ResetAfterAnySessionRestoresTheBaseline
  intro s t reqs replies hi hreqs h
  refine ⟨?_, State.resetUnit_resetUnit t⟩
  obtain ⟨last, hlast, hbaseline⟩ := session_induction (P := fun u => ∃ t, u = some t ∧ SameBaseline s t)
    (fun req hmem u u' ⟨_, hu, hbase⟩ htransition =>
      transition_sameBaseline hbase (hreqs req hmem) (hu ▸ htransition))
    ⟨s, rfl, hi, rfl, fun _ _ => rfl⟩ h
  obtain rfl := Option.some.inj hlast
  exact hbaseline.resetUnit_eq hi

/-! ## A unit that does not exist, and reads -/

/-- Settles O25: each clause is one row of the transaction's case distinction. -/
theorem uncreatedUnitRefusesAllButCreate : Obligations.UncreatedUnitRefusesAllButCreate := by
  unfold Obligations.UncreatedUnitRefusesAllButCreate
  refine ⟨fun req hreq => ?_, fun s => rfl, fun s image params ports => rfl, fun image params ports s h => ?_⟩
  · cases req with
    | create image params ports => exact absurd rfl (hreq image params ports)
    | reset | destroy | step | status | peek => rfl
  · simp only [transact, h]

/-- Settles O26: `peek` compares the name with the six one after another. -/
theorem peekAndStatusReadWithoutEffect : Obligations.PeekAndStatusReadWithoutEffect := by
  unfold Obligations.PeekAndStatusReadWithoutEffect
  refine fun s => ⟨rfl, fun name => rfl, s.peek_peekName .A, s.peek_peekName .B, s.peek_peekName .C, s.peek_peekName .D,
    rfl, rfl, fun name hname => ?_⟩
  simp only [List.mem_cons, List.not_mem_nil, or_false, not_or] at hname
  obtain ⟨hA, hB, hC, hD, hS, hI⟩ := hname
  rw [State.peek, if_neg hA, if_neg hB, if_neg hC, if_neg hD, if_neg hS, if_neg hI]

end Sys2Proof.Machine
end

section
/-! PROOF. The run driver (spec/70_reset_and_hazards.md R165): how many steps it makes and what it answers; and the parameters,
which nothing changes. -/

namespace Sys2Proof.Machine

variable {s t : State}

/-! ## The first step of a run -/

/-- What the driver answers after `n` steps that ended in a state with this status. -/
def runAnswer (st : Status) (n : Int) : Int := if st = .ok ∨ st = .halted then n else -n

/-- A run with steps left makes one, and stops after it when the status is terminal. -/
theorem runFrom_succ_eq_next {budget : Nat} {n answer : Int} : runFrom (budget + 1) n s = .next (t, answer) ↔
    ∃ s', step s = .next s' ∧
      ((s'.status ≠ .ok ∧ t = s' ∧ answer = runAnswer s'.status (n + 1)) ∨
        (s'.status = .ok ∧ runFrom budget (n + 1) s' = .next (t, answer))) := by
  cases hstep : step s with
  | fault | refused => simp [runFrom, hstep]
  | next s' =>
    cases hst : s'.status <;> simp [runFrom, hstep, hst, runAnswer, eq_comm]

/-! ## The parameters -/

theorem runFrom_params {budget : Nat} {n answer : Int} (h : runFrom budget n s = .next (t, answer)) :
    t.params = s.params := by
  induction budget generalizing n s with
  | zero => cases h; rfl
  | succ budget ih =>
    obtain ⟨s', hstep, ⟨-, rfl, -⟩ | ⟨-, hrest⟩⟩ := runFrom_succ_eq_next.1 h
    · exact step_params hstep
    · exact (ih hrest).trans (step_params hstep)

/-- Settles O19: `exec_params` for an instruction, from it `step_params` for a step and `runFrom_params` for a run. -/
theorem parametersNeverChange : Obligations.ParametersNeverChange := by
  unfold Obligations.ParametersNeverChange
  exact ⟨fun i s t => exec_params, fun s t => step_params, State.resetUnit_params, fun maxSteps s t n => runFrom_params⟩

/-! ## The steps of a run -/

/-- The run from `s` to `t` makes `n` steps, at least one, and only the last may leave a status other than OK. -/
structure RunsTo (n : Nat) (s t : State) : Prop where
  pos : 1 ≤ n
  run : core.run n s = .next t
  between : ∀ (k : Nat) (u : State), 0 < k → k < n → core.run k s = .next u → u.status = .ok

theorem core_run_one (h : step s = .next t) : core.run 1 s = .next t := core_run_succ_of_step h

theorem RunsTo.one (h : step s = .next t) : RunsTo 1 s t := ⟨le_rfl, core_run_one h, fun k _ _ _ => by omega⟩

/-- A step that leaves the unit running, before a run. -/
theorem RunsTo.cons {n : Nat} {s' : State} (hstep : step s = .next s') (hs' : s'.status = .ok) (h : RunsTo n s' t) :
    RunsTo (n + 1) s t := by
  refine ⟨by omega, (core_run_succ_of_step hstep).trans h.run, fun k u hk hlt hrun => ?_⟩
  obtain ⟨j, rfl⟩ : ∃ j, k = j + 1 := ⟨k - 1, by omega⟩
  rw [core_run_succ_of_step hstep] at hrun
  cases j with
  | zero =>
    obtain rfl := Host.Outcome.next.inj hrun
    exact hs'
  | succ j => exact h.between (j + 1) u (by omega) (by omega) hrun

/-- The driver's loop with steps left: how many steps it makes, and its answer, `n` of them counted before. -/
theorem runFrom_runsTo {budget : Nat} {n answer : Int} (h : runFrom (budget + 1) n s = .next (t, answer)) :
    ∃ k : Nat, k ≤ budget + 1 ∧ RunsTo k s t ∧ (t.status = .ok → k = budget + 1) ∧ answer = runAnswer t.status (n + k) := by
  induction budget generalizing n s with
  | zero =>
    obtain ⟨s', hstep, ⟨-, rfl, rfl⟩ | ⟨hok, hrest⟩⟩ := runFrom_succ_eq_next.1 h
    · exact ⟨1, le_rfl, .one hstep, fun _ => rfl, rfl⟩
    · cases hrest
      exact ⟨1, le_rfl, .one hstep, fun _ => rfl, (if_pos (.inl hok)).symm⟩
  | succ budget ih =>
    obtain ⟨s', hstep, ⟨hstop, rfl, rfl⟩ | ⟨hok, hrest⟩⟩ := runFrom_succ_eq_next.1 h
    · exact ⟨1, by omega, .one hstep, fun hok => absurd hok hstop, rfl⟩
    · obtain ⟨k, hle, hruns, hfull, rfl⟩ := ih hrest
      refine ⟨k + 1, by omega, hruns.cons hstep hok, fun ht => by rw [hfull ht], ?_⟩
      congr 1
      push_cast
      ring

/-- Settles O27: no steps without a budget, and with one `runFrom_runsTo`. -/
theorem runCountsStepsToTheFirstTerminalStatus : Obligations.RunCountsStepsToTheFirstTerminalStatus := by
  unfold Obligations.RunCountsStepsToTheFirstTerminalStatus
  refine ⟨fun maxSteps s hle => ?_, fun maxSteps s t answer hpos h => ?_⟩
  · rw [run, Int.toNat_of_nonpos hle, runFrom]
  · obtain ⟨budget, hbudget⟩ : ∃ budget : Nat, maxSteps = (budget + 1 : Nat) := ⟨maxSteps.toNat - 1, by omega⟩
    rw [run, hbudget, Int.toNat_natCast] at h
    obtain ⟨k, hle, hruns, hfull, rfl⟩ := runFrom_runsTo h
    refine ⟨k, hruns.pos, by omega, hruns.run, hruns.between, fun ht => ?_, ?_⟩
    · rw [hfull ht, hbudget]
    · rw [runAnswer, zero_add]

end Sys2Proof.Machine
end

section
/-! PROOF. The causes of each status (spec/60_exceptions.md section 1), and that a sound step has a next state
(spec/70_reset_and_hazards.md section 4). -/

namespace Sys2Proof.Machine

variable {s t : State} {i : Instr}

/-! ## The table of causes -/

/-- The causes of spec/60_exceptions.md section 1 for an instruction that was fetched. -/
inductive Cause (s : State) : Instr → Status → Prop where
  | halt : Cause s .halt .halted
  | divByZero (r : Reg) (h : (s.reg r).toInt = 0) : Cause s (.div r.selector) .divByZero
  | loadOutside (r : Reg) (offset : Word) (h : ¬s.slotValid (s.frameSlot offset)) :
      Cause s (.load r.selector offset) .invalidStackOperation
  | storeOutside (r : Reg) (offset : Word) (h : ¬s.slotValid (s.frameSlot offset)) :
      Cause s (.store r.selector offset) .invalidStackOperation
  | pushFull (r : Reg) (h : (s.params.stackCapacity : Int) ≤ s.stackSize.toInt) :
      Cause s (.push r.selector) .invalidStackOperation
  | callFull (x : Word) (h : (s.params.stackCapacity : Int) ≤ s.stackSize.toInt) :
      Cause s (.call x) .invalidStackOperation
  | popEmpty (r : Reg) (h : s.stackSize = 0) : Cause s (.pop r.selector) .invalidStackOperation
  | retEmpty (h : s.stackSize = 0) : Cause s .ret .invalidStackOperation
  | badSelector (i : Instr) (w : Word) (hw : w ∈ selectorWords i) (h : 3 < w.toNat) : Cause s i .illegalOperand
  | putRange (r : Reg) (h : (s.reg r).toInt < 0 ∨ 254 < (s.reg r).toInt) : Cause s (.put r.selector) .illegalOperand
  | inMalformed (r : Reg) (h : s.ports.inInt.1 = .malformed) : Cause s (.inp r.selector) .ioError
  | getMalformed (r : Reg) (h : s.ports.inChar.1 = .malformed) : Cause s (.get r.selector) .ioError

/-! ## Each cause sets its status -/

theorem exec_div_zero (r : Reg) (h : (s.reg r).toInt = 0) : exec (.div r.selector) s = .next (s.fail .divByZero) := by
  rw [exec, execDiv, withReg_selector, divideA_zero h, dispatch_raise]

theorem exec_put_range (r : Reg) (h : (s.reg r).toInt < 0 ∨ 254 < (s.reg r).toInt) :
    exec (.put r.selector) s = .next (s.fail .illegalOperand) := by
  rw [exec, execPut, withReg_selector, if_pos h, dispatch_raise]

/-- `in` with a good selector delivers the host's answer. -/
theorem exec_inp (s : State) (r : Reg) : exec (.inp r.selector) s =
    .next ((receive r s.ports.inInt.1 { s with ports := s.ports.inInt.2 }).commit 2) := by
  rw [exec, execInp, withReg_selector, dispatch_next]

/-- `get` with a good selector delivers the host's answer. -/
theorem exec_get (s : State) (r : Reg) : exec (.get r.selector) s =
    .next ((receive r (charAsWord s.ports.inChar.1) { s with ports := s.ports.inChar.2 }).commit 2) := by
  rw [exec, execGet, withReg_selector, dispatch_next]

theorem exec_of_cause {st : Status} (hc : Cause s i st) : ∃ t, exec i s = .next t ∧ t.status = st := by
  cases hc with
  | halt => exact ⟨_, rfl, rfl⟩
  | divByZero r h => exact ⟨_, exec_div_zero r h, rfl⟩
  | loadOutside r offset h => exact ⟨_, exec_load_outside r h, rfl⟩
  | storeOutside r offset h => exact ⟨_, exec_store_outside r h, rfl⟩
  | pushFull r h => exact ⟨_, exec_push_full r h, rfl⟩
  | callFull x h => exact ⟨_, exec_call_full x h, rfl⟩
  | popEmpty r h => exact ⟨_, exec_pop_empty r h, rfl⟩
  | retEmpty h => exact ⟨_, exec_ret_empty h, rfl⟩
  | badSelector i w hw h => exact ⟨_, exec_bad_selector s hw h, rfl⟩
  | putRange r h => exact ⟨_, exec_put_range r h, rfl⟩
  | inMalformed r h => exact ⟨_, exec_inp s r, by rw [h]; rfl⟩
  | getMalformed r h => exact ⟨_, exec_get s r, by rw [h]; rfl⟩

/-! ## No other status is set -/

/-- A delivered answer keeps the status, unless it is malformed. -/
theorem receive_commit_status_cause (r : Reg) (ans : InputAnswer Word) (s : State) (len : Nat) :
    ((receive r ans s).commit len).status = s.status ∨
      ans = .malformed ∧ ((receive r ans s).commit len).status = .ioError := by
  cases ans with
  | value v => exact .inl (by simp)
  | endOfInput => exact .inl (by simp)
  | malformed => exact .inr ⟨rfl, rfl⟩

theorem charAsWord_eq_malformed {ans : InputAnswer Byte} : charAsWord ans = .malformed ↔ ans = .malformed := by
  cases ans <;> simp [charAsWord]

theorem exec_status_cause (h : exec i s = .next t) : t.status = s.status ∨ Cause s i t.status := by
  rcases exec_cases h with ⟨w, hw, hbad, rfl⟩ | he
  · exact .inr (.badSelector i w hw hbad)
  cases i
  case halt =>
    obtain rfl : t = _ := he
    exact .inr .halt
  case nop | loop | jmp | jz | jnz | jgt =>
    obtain rfl : t = _ := he
    exact .inl rfl
  case add | sub | mul | inc | dec | movr | out =>
    obtain ⟨r, -, rfl⟩ := he
    exact .inl (by simp)
  case swap | cmp =>
    obtain ⟨r1, r2, -, -, rfl⟩ := he
    exact .inl (by simp)
  case div =>
    obtain ⟨r, rfl, ⟨h0, rfl⟩ | ⟨-, -, -, rfl⟩ | ⟨-, -, rfl⟩⟩ := he
    · exact .inr (.divByZero r h0)
    · exact .inl rfl
    · exact .inl rfl
  case put =>
    obtain ⟨r, rfl, ⟨hrange, rfl⟩ | ⟨-, rfl⟩⟩ := he
    · exact .inr (.putRange r hrange)
    · exact .inl rfl
  case load =>
    obtain ⟨r, rfl, ⟨hout, rfl⟩ | ⟨-, -, rfl⟩⟩ := he
    · exact .inr (.loadOutside r _ hout)
    · exact .inl (State.setReg_status ..)
  case store =>
    obtain ⟨r, rfl, ⟨hout, rfl⟩ | ⟨-, -, rfl⟩⟩ := he
    · exact .inr (.storeOutside r _ hout)
    · exact .inl rfl
  case push =>
    obtain ⟨r, rfl, ⟨hfull, rfl⟩ | ⟨-, -, rfl⟩⟩ := he
    · exact .inr (.pushFull r hfull)
    · exact .inl rfl
  case pop =>
    obtain ⟨r, rfl, ⟨hempty, rfl⟩ | ⟨-, -, rfl⟩⟩ := he
    · exact .inr (.popEmpty r hempty)
    · exact .inl (State.setReg_status ..)
  case call =>
    obtain ⟨hfull, rfl⟩ | ⟨-, -, rfl⟩ := he
    · exact .inr (.callFull _ hfull)
    · exact .inl rfl
  case ret =>
    obtain ⟨hempty, rfl⟩ | ⟨-, -, rfl⟩ := he
    · exact .inr (.retEmpty hempty)
    · exact .inl rfl
  case inp =>
    obtain ⟨r, rfl, rfl⟩ := he
    refine (receive_commit_status_cause r _ _ 2).imp id fun ⟨hmalformed, hio⟩ => ?_
    exact hio ▸ .inMalformed r hmalformed
  case get =>
    obtain ⟨r, rfl, rfl⟩ := he
    refine (receive_commit_status_cause r _ _ 2).imp id fun ⟨hmalformed, hio⟩ => ?_
    exact hio ▸ .getMalformed r (charAsWord_eq_malformed.1 hmalformed)

/-- A running unit's instruction sets a status other than OK exactly when that status has its cause. -/
theorem exec_status_iff_cause {st : Status} (hs : s.status = .ok) (hst : st ≠ .ok) (h : exec i s = .next t) :
    t.status = st ↔ Cause s i st := by
  constructor
  · rintro rfl
    exact (exec_status_cause h).resolve_left fun hkept => hst (hkept.trans hs)
  · intro hc
    obtain ⟨u, hu, rfl⟩ := exec_of_cause hc
    rw [Host.Outcome.next.inj (h.symm.trans hu)]

/-! ## The causes of one status -/

theorem cause_halted : Cause s i .halted ↔ i = .halt := by
  constructor
  · intro h
    cases h with
    | halt => rfl
  · rintro rfl
    exact .halt

theorem cause_divByZero : Cause s i .divByZero ↔ ∃ r : Reg, i = .div r.selector ∧ (s.reg r).toInt = 0 := by
  constructor
  · intro h
    cases h with
    | divByZero r h => exact ⟨r, rfl, h⟩
  · rintro ⟨r, rfl, h⟩
    exact .divByZero r h

theorem State.stackSize_eq_zero : s.stackSize = 0 ↔ s.stackSize.toInt = 0 := by
  rw [← BitVec.toInt_inj]
  rfl

theorem State.not_slotValid {slot : Int} :
    ¬s.slotValid slot ↔ slot ≤ s.params.stackLimit ∨ s.params.stackBottom < slot := by
  rw [not_and_or, not_lt, not_le]

theorem cause_invalidStackOperation : Cause s i .invalidStackOperation ↔
    (∃ (r : Reg) (offset : Word), (i = .load r.selector offset ∨ i = .store r.selector offset) ∧
      (s.frameSlot offset ≤ s.params.stackLimit ∨ s.params.stackBottom < s.frameSlot offset)) ∨
    (((∃ r : Reg, i = .push r.selector) ∨ ∃ x, i = .call x) ∧ (s.params.stackCapacity : Int) ≤ s.stackSize.toInt) ∨
    (((∃ r : Reg, i = .pop r.selector) ∨ i = .ret) ∧ s.stackSize.toInt = 0) := by
  simp only [← State.not_slotValid, ← State.stackSize_eq_zero]
  constructor
  · intro h
    cases h with
    | loadOutside r offset h => exact .inl ⟨r, offset, .inl rfl, h⟩
    | storeOutside r offset h => exact .inl ⟨r, offset, .inr rfl, h⟩
    | pushFull r h => exact .inr (.inl ⟨.inl ⟨r, rfl⟩, h⟩)
    | callFull x h => exact .inr (.inl ⟨.inr ⟨x, rfl⟩, h⟩)
    | popEmpty r h => exact .inr (.inr ⟨.inl ⟨r, rfl⟩, h⟩)
    | retEmpty h => exact .inr (.inr ⟨.inr rfl, h⟩)
  · rintro (⟨r, offset, rfl | rfl, h⟩ | ⟨⟨r, rfl⟩ | ⟨x, rfl⟩, h⟩ | ⟨⟨r, rfl⟩ | rfl, h⟩)
    · exact .loadOutside r offset h
    · exact .storeOutside r offset h
    · exact .pushFull r h
    · exact .callFull x h
    · exact .popEmpty r h
    · exact .retEmpty h

theorem cause_illegalOperand : Cause s i .illegalOperand ↔
    (∃ w ∈ selectorWords i, 3 < w.toNat) ∨
      ∃ r : Reg, i = .put r.selector ∧ ((s.reg r).toInt < 0 ∨ 254 < (s.reg r).toInt) := by
  constructor
  · intro h
    cases h with
    | badSelector _ w hw h => exact .inl ⟨w, hw, h⟩
    | putRange r h => exact .inr ⟨r, rfl, h⟩
  · rintro (⟨w, hw, h⟩ | ⟨r, rfl, h⟩)
    · exact .badSelector i w hw h
    · exact .putRange r h

theorem cause_ioError : Cause s i .ioError ↔
    (∃ r : Reg, i = .inp r.selector ∧ s.ports.inInt.1 = .malformed) ∨
      ∃ r : Reg, i = .get r.selector ∧ s.ports.inChar.1 = .malformed := by
  constructor
  · intro h
    cases h with
    | inMalformed r h => exact .inl ⟨r, rfl, h⟩
    | getMalformed r h => exact .inr ⟨r, rfl, h⟩
  · rintro (⟨r, rfl, h⟩ | ⟨r, rfl, h⟩)
    · exact .inMalformed r h
    · exact .getMalformed r h

/-- Settles O12: a status set has its cause and a cause sets its status, `exec_status_iff_cause`; then status by status. -/
theorem everyStatusHasItsCause : Obligations.EveryStatusHasItsCause := by
  unfold Obligations.EveryStatusHasItsCause
  intro s t i hs hf h
  rw [step_of_fetch hs hf] at h
  have hcause {st : Status} (hst : st ≠ .ok) : t.status = st ↔ Cause s i st := exec_status_iff_cause hs hst h
  refine ⟨(hcause (by decide)).trans cause_halted, (hcause (by decide)).trans cause_divByZero,
    (hcause (by decide)).trans cause_invalidStackOperation, (hcause (by decide)).trans cause_illegalOperand,
    (hcause (by decide)).trans cause_ioError, fun hbad => ?_, fun hbad => ?_⟩
  · cases (hcause (by decide)).1 hbad
  · cases (hcause (by decide)).1 hbad

/-! ## Handlers that end -/

/-- The handler leaves a signal and a state: it does not fault and is not refused. -/
def Ends (H : Handler) : Prop := ∃ hd, H = .next hd

theorem Ends.dispatch {H : Handler} (h : Ends H) (len : Nat) : ∃ t, dispatch len H = .next t := by
  obtain ⟨hd, rfl⟩ := h
  exact ⟨_, rfl⟩

theorem ends_next (hd : Handled) : Ends (.next hd) := ⟨hd, rfl⟩
theorem ends_raise (st : Status) (s : State) : Ends (raise st s) := ends_next _
theorem ends_proceed (s : State) : Ends (proceed s) := ends_next _
theorem ends_jumpTo (target : Word) (s : State) : Ends (jumpTo target s) := ends_next _

theorem ends_ite {c : Prop} [Decidable c] {H₁ H₂ : Handler} (h₁ : c → Ends H₁) (h₂ : ¬c → Ends H₂) :
    Ends (if c then H₁ else H₂) := by
  by_cases hc : c
  · rw [if_pos hc]
    exact h₁ hc
  · rw [if_neg hc]
    exact h₂ hc

theorem ends_branchIf (taken : Bool) (target : Word) (s : State) : Ends (branchIf taken target s) :=
  ends_ite (fun _ => ends_jumpTo target s) fun _ => ends_proceed s

theorem ends_withReg {rest : Reg → Handler} (w : Word) (h : ∀ r, w = r.selector → Ends (rest r)) :
    Ends (withReg w s rest) := by
  rcases withReg_cases w s rest with ⟨r, hw, hrest⟩ | ⟨-, hbad⟩
  · exact hrest ▸ h r hw
  · exact hbad ▸ ends_raise _ s

/-- A read of a slot of the stack region reaches Memory. -/
theorem ends_readThen {rest : Word → Handler} {slot : Int} (hi : s.Inv) (hv : s.slotValid slot)
    (h : ∀ v, Ends (rest v)) : Ends (readThen slot s rest) := by
  rw [readThen_inside (State.slotValid_inside hi.geometry hv)]
  exact h _

/-- A write to a slot of the stack region reaches Memory. -/
theorem ends_writeThen {rest : State → Handler} {slot : Int} (hi : s.Inv) (hv : s.slotValid slot) (v : Word)
    (h : ∀ s', Ends (rest s')) : Ends (writeThen slot v s rest) := by
  rw [writeThen_inside (State.slotValid_inside hi.geometry hv)]
  exact h _

theorem ends_withFrameSlot {rest : Int → Handler} (offset : Word) (h : ∀ slot, s.slotValid slot → Ends (rest slot)) :
    Ends (withFrameSlot offset s rest) :=
  ends_ite (h _) fun _ => ends_raise _ s

theorem ends_pushThen {rest : State → Handler} (hi : s.Inv) (v : Word) (h : ∀ s', Ends (rest s')) :
    Ends (pushThen v s rest) :=
  ends_ite (fun _ => ends_raise _ s) fun hroom =>
    ends_writeThen hi (hi.slotValid_freeSlot (not_le.1 hroom)) v fun _ => h _

/-- A division ends unless it is the one that `DIV_OVERFLOW` refuses. -/
theorem ends_divideA {v : Word} (h : ¬((s.a.toInt = -2147483648 ∧ v.toInt = -1) ∧ s.params.divOverflow = .refuse)) :
    Ends (divideA v s) := by
  cases hdiv : divideA v s with
  | next hd => exact ends_next hd
  | fault f => exact absurd hdiv divideA_ne_fault
  | refused r =>
    obtain ⟨hover, hrefuse, -⟩ := divideA_eq_refused.1 hdiv
    exact absurd ⟨hover, hrefuse⟩ h

/-! ## A sound step has a next state -/

/-- The instruction is a division that `DIV_OVERFLOW` refuses (spec/41_arithmetic.md R93). -/
def RefusedDivision (s : State) (i : Instr) : Prop :=
  ∃ r : Reg, i = .div r.selector ∧ (s.a.toInt = -2147483648 ∧ (s.reg r).toInt = -1) ∧ s.params.divOverflow = .refuse

theorem exec_ends (hi : s.Inv) (hdiv : ¬RefusedDivision s i) : ∃ t, exec i s = .next t := by
  cases i with
  | nop => exact (ends_jumpTo _ s).dispatch 1
  | halt => exact (ends_raise _ _).dispatch 1
  | jmp x => exact (ends_jumpTo x s).dispatch 2
  | loop x | jz x | jnz x | jgt x => exact (ends_branchIf _ x s).dispatch 2
  | call x => exact (ends_pushThen hi _ fun s' => ends_jumpTo x s').dispatch 2
  | ret =>
    refine (ends_ite (fun _ => ends_raise _ s) fun hne => ?_).dispatch 1
    have hv := hi.slotValid_topSlot hne
    exact ends_readThen hi hv fun target => ends_writeThen hi hv 0 fun _ => ends_jumpTo target _
  | swap w1 w2 | cmp w1 w2 =>
    exact (ends_withReg w1 fun _ _ => ends_withReg w2 fun _ _ => ends_proceed _).dispatch 3
  | add w | sub w | mul w | inc w | dec w | out w => exact (ends_withReg w fun _ _ => ends_proceed _).dispatch 2
  | movr w v => exact (ends_withReg w fun _ _ => ends_proceed _).dispatch 3
  | div w => exact (ends_withReg w fun r hw => ends_divideA fun hover => hdiv ⟨r, hw ▸ rfl, hover⟩).dispatch 2
  | inp w | get w => exact (ends_withReg w fun _ _ => ends_next _).dispatch 2
  | put w => exact (ends_withReg w fun _ _ => ends_ite (fun _ => ends_raise _ s) fun _ => ends_proceed _).dispatch 2
  | load w o =>
    exact (ends_withReg w fun _ _ => ends_withFrameSlot o fun _ hv =>
      ends_readThen hi hv fun _ => ends_proceed _).dispatch 3
  | store w o =>
    exact (ends_withReg w fun _ _ => ends_withFrameSlot o fun _ hv => ends_writeThen hi hv _ ends_proceed).dispatch 3
  | push w => exact (ends_withReg w fun _ _ => ends_pushThen hi _ ends_proceed).dispatch 2
  | pop w =>
    exact (ends_withReg w fun _ _ => ends_ite (fun _ => ends_raise _ s) fun hne =>
      ends_readThen hi (hi.slotValid_topSlot hne) fun _ => ends_proceed _).dispatch 2

theorem exec_refusedDivision (h : RefusedDivision s i) : exec i s = .refused .divOverflow := by
  obtain ⟨r, rfl, hover, hrefuse⟩ := h
  rw [exec, execDiv, withReg_selector, divideA_refuse hover hrefuse]
  rfl

/-- The model's condition for a refused step, by the instruction fetched. -/
theorem overflowingDiv_iff : s.overflowingDiv ↔ s.status = .ok ∧ ∃ i, fetch s = .ok i ∧ RefusedDivision s i := by
  constructor
  · rintro ⟨hs, hrefuse, ha, w, r, hf, hw, hr⟩
    obtain rfl := (selected_eq_some r).1 hw
    exact ⟨hs, _, hf, r, rfl, ⟨ha, hr⟩, hrefuse⟩
  · rintro ⟨hs, i, hf, r, rfl, ⟨ha, hr⟩, hrefuse⟩
    exact ⟨hs, hrefuse, ha, _, r, hf, selected_selector r, hr⟩

/-- Settles O18: an instruction of a sound unit ends by `exec_ends`, unless it is the refused division. -/
theorem soundStepNeverFaults : Obligations.SoundStepNeverFaults := by
  unfold Obligations.SoundStepNeverFaults
  refine fun s hi => ⟨fun hno => ?_, fun hover => ?_⟩
  · rcases step_cases s with ⟨-, hstep⟩ | ⟨hs, i, hf, hstep⟩ | ⟨-, st, -, hstep⟩
    · exact ⟨s, hstep⟩
    · rw [hstep]
      exact exec_ends hi fun hdiv => hno (overflowingDiv_iff.2 ⟨hs, i, hf, hdiv⟩)
    · exact ⟨_, hstep⟩
  · obtain ⟨hs, i, hf, hdiv⟩ := overflowingDiv_iff.1 hover
    rw [step_of_fetch hs hf, exec_refusedDivision hdiv]

end Sys2Proof.Machine
end

section
/-! PROOF. Arithmetic, `cmp` and `halt` (spec/41_arithmetic.md, spec/45_branch.md section 3, spec/40_dispatch.md section 3): the
wrap to 32 bits and the quotient in the integers, then each instruction with good selectors. -/

namespace Sys2Proof

/-! ## The wrap to 32 bits -/

/-- The wrap is congruent to the exact value modulo 2^32. -/
theorem dvd_toInt_wrap32_sub (v : Int) : (4294967296 : Int) ∣ (wrap32 v).toInt - v := by
  rw [BitVec.toInt_ofInt]
  exact Int.dvd_bmod_sub_self

/-- A value that fits in 32 bits is not changed by the wrap. -/
theorem toInt_wrap32_of_fits {v : Int} (hlo : -2147483648 ≤ v) (hhi : v ≤ 2147483647) : (wrap32 v).toInt = v := by
  rw [BitVec.toInt_ofInt]
  exact Int.bmod_eq_of_le (by omega) (by omega)

theorem Word.toInt_bounds (w : Word) : -2147483648 ≤ w.toInt ∧ w.toInt ≤ 2147483647 := by
  have hlo := BitVec.le_toInt w
  have hhi := BitVec.toInt_lt (x := w)
  omega

/-! ## The quotient -/

/-- `tdiv` of the spec is the library's division that rounds toward zero. -/
theorem tdiv_eq_int_tdiv (a b : Int) : tdiv a b = a.tdiv b := by
  rw [← Int.sign_mul_natAbs (a.tdiv b), Int.sign_tdiv, Int.natAbs_tdiv, tdiv]
  split_ifs with hlt
  · simp [Nat.div_eq_of_lt hlt]
  · rfl

/-- A quotient that is not −2^31 / −1 fits in 32 bits. -/
theorem tdiv_fits {a b : Word} (h0 : b.toInt ≠ 0) (hover : ¬(a.toInt = -2147483648 ∧ b.toInt = -1)) :
    -2147483648 ≤ tdiv a.toInt b.toInt ∧ tdiv a.toInt b.toInt ≤ 2147483647 := by
  obtain ⟨hlo, hhi⟩ := Word.toInt_bounds a
  rw [tdiv_eq_int_tdiv]
  have hdivisor : b.toInt = 1 ∨ b.toInt = -1 ∨ 2 ≤ b.toInt.natAbs := by omega
  obtain hb | hb | hb := hdivisor
  · rw [hb, Int.tdiv_one]
    exact ⟨hlo, hhi⟩
  · have hmin : a.toInt ≠ -2147483648 := fun ha => hover ⟨ha, hb⟩
    rw [hb, Int.tdiv_neg, Int.tdiv_one]
    omega
  · have hhalf : (a.toInt.tdiv b.toInt).natAbs ≤ a.toInt.natAbs / 2 := by
      rw [Int.natAbs_tdiv]
      exact Nat.div_le_div_left hb (by omega)
    omega

/-- The remainder of the quotient rounded toward zero: smaller than the divisor, with the dividend's sign. -/
theorem tdiv_remainder {a b : Int} (h0 : b ≠ 0) : ∃ rem : Int, a = tdiv a b * b + rem ∧ |rem| < |b| ∧ 0 ≤ rem * a := by
  refine ⟨a.tmod b, ?_, ?_, ?_⟩
  · rw [tdiv_eq_int_tdiv, mul_comm, Int.mul_tdiv_add_tmod]
  · rw [Int.abs_eq_natAbs, Int.abs_eq_natAbs, Int.natAbs_tmod]
    exact_mod_cast Nat.mod_lt _ (Int.natAbs_pos.2 h0)
  · rcases le_total 0 a with ha | ha
    · exact mul_nonneg (Int.tmod_nonneg b ha) ha
    · have hneg := Int.tmod_nonneg b (neg_nonneg.2 ha)
      rw [Int.neg_tmod] at hneg
      exact mul_nonneg_of_nonpos_of_nonpos (neg_nonneg.1 hneg) ha

end Sys2Proof

namespace Sys2Proof.Machine

variable (s : State) (r : Reg)

/-! ## The instructions with good selectors -/

theorem exec_add : exec (.add r.selector) s =
    .next { s with a := wrap32 (s.a.toInt + (s.reg r).toInt), ip := s.ip + 2 } := by
  rw [exec, execAdd, withReg_selector, dispatch_proceed]
  rfl

theorem exec_sub : exec (.sub r.selector) s =
    .next { s with a := wrap32 (s.a.toInt - (s.reg r).toInt), ip := s.ip + 2 } := by
  rw [exec, execSub, withReg_selector, dispatch_proceed]
  rfl

theorem exec_mul : exec (.mul r.selector) s =
    .next { s with a := wrap32 (s.a.toInt * (s.reg r).toInt), ip := s.ip + 2 } := by
  rw [exec, execMul, withReg_selector, dispatch_proceed]
  rfl

theorem exec_inc : exec (.inc r.selector) s =
    .next { s.setReg r (wrap32 ((s.reg r).toInt + 1)) with ip := s.ip + 2 } := by
  rw [exec, execInc, withReg_selector, dispatch_proceed, State.setReg_ip]
  rfl

theorem exec_dec : exec (.dec r.selector) s =
    .next { s.setReg r (wrap32 ((s.reg r).toInt - 1)) with ip := s.ip + 2 } := by
  rw [exec, execDec, withReg_selector, dispatch_proceed, State.setReg_ip]
  rfl

variable {s r}

theorem exec_div_quotient (h0 : (s.reg r).toInt ≠ 0) (hover : ¬(s.a.toInt = -2147483648 ∧ (s.reg r).toInt = -1)) :
    exec (.div r.selector) s = .next { s with a := wrap32 (tdiv s.a.toInt (s.reg r).toInt), ip := s.ip + 2 } := by
  rw [exec, execDiv, withReg_selector, divideA_quotient h0 hover, dispatch_proceed]
  rfl

theorem exec_div_wrap (hover : s.a.toInt = -2147483648 ∧ (s.reg r).toInt = -1) (hp : s.params.divOverflow = .wrap) :
    exec (.div r.selector) s = .next { s with a := 0x80000000#32, ip := s.ip + 2 } := by
  rw [exec, execDiv, withReg_selector, divideA_wrap hover hp, dispatch_proceed]
  rfl

/-! ## The obligations -/

/-- Settles O35: the three instructions leave the wrap of their exact value in A. -/
theorem addSubMulWrapIntoA : Obligations.AddSubMulWrapIntoA := by
  unfold Obligations.AddSubMulWrapIntoA
  intro s r i v h
  have hexec : exec i s = .next { s with a := wrap32 v, ip := s.ip + 2 } := by
    obtain ⟨rfl, rfl⟩ | ⟨rfl, rfl⟩ | ⟨rfl, rfl⟩ := h
    · exact exec_add s r
    · exact exec_sub s r
    · exact exec_mul s r
  exact ⟨wrap32 v, hexec, dvd_toInt_wrap32_sub v, toInt_wrap32_of_fits⟩

/-- Settles O36: one more than 2^31 − 1 and one less than −2^31 wrap, and every other value fits. -/
theorem incDecWrapTheRegister : Obligations.IncDecWrapTheRegister := by
  unfold Obligations.IncDecWrapTheRegister
  intro s r
  obtain ⟨hlo, hhi⟩ := Word.toInt_bounds (s.reg r)
  refine ⟨⟨_, exec_inc s r, ?_⟩, ⟨_, exec_dec s r, ?_⟩⟩
  · split_ifs with hmax
    · rw [hmax]
      rfl
    · exact toInt_wrap32_of_fits (by omega) (by omega)
  · split_ifs with hmin
    · rw [hmin]
      rfl
    · exact toInt_wrap32_of_fits (by omega) (by omega)

/-- Settles O37: the quotient fits, `tdiv_fits`, and its remainder is that of `tdiv_remainder`. -/
theorem divRoundsTowardZero : Obligations.DivRoundsTowardZero := by
  unfold Obligations.DivRoundsTowardZero
  intro s r h0 hover
  obtain ⟨hlo, hhi⟩ := tdiv_fits h0 hover
  refine ⟨_, exec_div_quotient h0 hover, ?_⟩
  rw [toInt_wrap32_of_fits hlo hhi]
  exact tdiv_remainder h0

/-- Settles O38, by `exec_div_zero`. -/
theorem divByZeroLeavesAUnmodified : Obligations.DivByZeroLeavesAUnmodified := by
  unfold Obligations.DivByZeroLeavesAUnmodified
  exact fun s r h0 => exec_div_zero r h0

/-- Settles O39: the quotient that wraps is the −2^31 that A holds. -/
theorem divOverflowFollowsTheParameter : Obligations.DivOverflowFollowsTheParameter := by
  unfold Obligations.DivOverflowFollowsTheParameter
  refine fun s r ha hr => ⟨fun hp => exec_refusedDivision ⟨r, rfl, ⟨ha, hr⟩, hp⟩, fun hp => ?_⟩
  have hkept : s.a = 0x80000000#32 := BitVec.eq_of_toInt_eq ha
  rw [exec_div_wrap ⟨ha, hr⟩ hp, ← hkept]

/-- Settles O54: `exec_cmp`, whose difference is 0 modulo 2^32 only when the registers are equal. -/
theorem cmpWritesTheDifference : Obligations.CmpWritesTheDifference := by
  unfold Obligations.CmpWritesTheDifference
  intro s r1 r2
  have hcongr := dvd_toInt_wrap32_sub ((s.reg r1).toInt - (s.reg r2).toInt)
  refine ⟨_, exec_cmp s r1 r2, ⟨fun hzero => BitVec.eq_of_toInt_eq ?_, fun heq => ?_⟩, hcongr, toInt_compareResult⟩
  · have h1 := Word.toInt_bounds (s.reg r1)
    have h2 := Word.toInt_bounds (s.reg r2)
    rw [compareResult] at hzero
    omega
  · rw [compareResult, heq, sub_self]
    rfl

/-- Settles O34: `IP` moves by the parameter's value. -/
theorem haltSetsHalted : Obligations.HaltSetsHalted := by
  unfold Obligations.HaltSetsHalted
  intro s
  have hexec : exec .halt s = .next { s with status := .halted, ip := s.ip + s.params.haltAdvance } := rfl
  refine ⟨fun h0 => ?_, fun h1 => ?_⟩
  · have hkept : s.ip + s.params.haltAdvance = s.ip := by
      rw [Params.haltAdvance, h0]
      exact BitVec.add_zero s.ip
    rw [hexec, hkept]
  · have hmoved : s.params.haltAdvance = 1 := by
      rw [Params.haltAdvance, h1]
      rfl
    rw [hexec, hmoved]

/-- Settles O29: the read of the register file by its two rules, the rest field by field. -/
theorem registersAreIndependent : Obligations.RegistersAreIndependent := by
  unfold Obligations.RegistersAreIndependent
  exact fun s r v => ⟨s.reg_setReg_same r v, fun r' => s.reg_setReg_ne r r' v, s.setReg_ip r v, s.setReg_status r v,
    s.setReg_stackSize r v, s.setReg_result r v, s.setReg_mem r v, s.setReg_params r v, s.setReg_ports r v⟩

end Sys2Proof.Machine
end

section
/-! PROOF. Stack and frame slots (spec/43_stack.md R105 to R109): what `load`, `store` and `pop` leave when their slot is good, and
`pop` after `push`. -/

namespace Sys2Proof.Machine

variable {s : State}

/-! ## `load` and `store` -/

theorem exec_load_valid {r : Reg} {offset : Word} (hg : s.params.wellFormed) (hv : s.slotValid (s.frameSlot offset)) :
    exec (.load r.selector offset) s =
      .next { s.setReg r (s.mem.readWord (s.frameSlot offset).toNat) with ip := s.ip + 3 } := by
  rw [exec, execLoad, withReg_selector, withFrameSlot_valid hv, readThen_inside (State.slotValid_inside hg hv),
    dispatch_proceed, State.setReg_ip]
  rfl

theorem exec_store_valid {r : Reg} {offset : Word} (hg : s.params.wellFormed) (hv : s.slotValid (s.frameSlot offset)) :
    exec (.store r.selector offset) s =
      .next { s with mem := s.mem.writeWord (s.frameSlot offset).toNat (s.reg r), ip := s.ip + 3 } := by
  rw [exec, execStore, withReg_selector, withFrameSlot_valid hv, writeThen_inside (State.slotValid_inside hg hv),
    dispatch_proceed]
  rfl

/-- Settles O42, by `exec_load_valid`. -/
theorem loadReadsTheFrameSlot : Obligations.LoadReadsTheFrameSlot := by
  unfold Obligations.LoadReadsTheFrameSlot
  rintro s r offset slot hg rfl hlo hhi
  exact exec_load_valid hg ⟨hlo, hhi⟩

/-- Settles O43: the effect is `exec_store_valid`, read back by the rules of a word write. -/
theorem storeWritesTheFrameSlot : Obligations.StoreWritesTheFrameSlot := by
  unfold Obligations.StoreWritesTheFrameSlot
  rintro s r offset slot hg hwf rfl hlo hhi
  obtain ⟨hpos, -⟩ := State.slotValid_inside (s := s) hg ⟨hlo, hhi⟩
  exact ⟨_, exec_store_valid hg ⟨hlo, hhi⟩, Memory.readWord_writeWord_same _ _ _ hwf,
    fun a ha => Memory.readByte_writeWord_outside _ _ _ _ (by rw [State.frameSlot]; omega)⟩

/-- Settles O44, by `exec_load_outside` and `exec_store_outside`. -/
theorem frameSlotOutsideTheStackFails : Obligations.FrameSlotOutsideTheStackFails := by
  unfold Obligations.FrameSlotOutsideTheStackFails
  rintro s r offset slot rfl hout
  have hbad : ¬s.slotValid (s.frameSlot offset) := State.not_slotValid.2 hout
  exact ⟨exec_load_outside r hbad, exec_store_outside r hbad⟩

/-! ## `pop` -/

/-- The unit after `pop` copied the top word into a register and uncounted it. -/
def State.popped (s : State) (r : Reg) : State :=
  { s.setReg r (s.mem.readWord s.topSlot.toNat) with stackSize := s.stackSize - 1, ip := s.ip + 2 }

theorem exec_pop_nonempty (r : Reg) (h : s.stackSize ≠ 0) (hin : 0 ≤ s.topSlot ∧ s.topSlot < s.params.memWords) :
    exec (.pop r.selector) s = .next (s.popped r) := by
  rw [exec, execPop, withReg_selector, if_neg h, readThen_inside hin, dispatch_proceed]
  simp only [State.setReg_ip]
  rfl

/-- Settles O46: a word on the stack by `exec_pop_nonempty`, an empty stack by `exec_pop_empty`. -/
theorem popReadsTheTopWord : Obligations.PopReadsTheTopWord := by
  unfold Obligations.PopReadsTheTopWord
  refine fun s r => ⟨fun hi hpos => ?_, fun hempty => exec_pop_empty r (BitVec.eq_of_toInt_eq hempty)⟩
  have hne := State.stackSize_ne_zero hpos
  obtain ⟨-, -, hin⟩ := State.topSlot_bounds hi hne
  exact ⟨s.topSlot.toNat, s.stackSize - 1, Int.toNat_of_nonneg hin.1, State.toInt_stackSize_sub_one hi hpos,
    exec_pop_nonempty r hne hin⟩

/-! ## `push` and then `pop` -/

/-- The slot a push fills is the top slot afterwards. -/
theorem State.topSlot_pushed (v : Word) (hi : s.Inv) (h : s.stackSize.toInt < s.params.stackCapacity) :
    (s.pushed v).topSlot = s.freeSlot :=
  State.topSlot_called 0 hi h

theorem exec_pop_pushed (r : Reg) (v : Word) (hi : s.Inv) (h : s.stackSize.toInt < s.params.stackCapacity) :
    exec (.pop r.selector) (s.pushed v) = .next ((s.pushed v).popped r) := by
  obtain ⟨-, -, hin⟩ := State.freeSlot_bounds hi h
  have hcount : (s.pushed v).stackSize.toInt = s.stackSize.toInt + 1 := State.toInt_stackSize_add_one hi h
  have hnonneg := hi.stackNonneg
  exact exec_pop_nonempty r (State.stackSize_ne_zero (by omega)) (by rwa [State.topSlot_pushed v hi h])

/-- Settles O47: `exec_push_room` and `exec_pop_pushed`; the word popped is the one pushed. -/
theorem pushThenPopIsARoundTrip : Obligations.PushThenPopIsARoundTrip := by
  unfold Obligations.PushThenPopIsARoundTrip
  intro s r r' hi hroom
  have hread : (s.pushed (s.reg r)).mem.readWord (s.pushed (s.reg r)).topSlot.toNat = s.reg r := by
    rw [State.topSlot_pushed _ hi hroom, State.readWord_pushed _ hi.memWf]
  refine ⟨s.pushed (s.reg r), (s.pushed (s.reg r)).popped r', exec_push_room r hi hroom, exec_pop_pushed r' _ hi hroom,
    (State.reg_setReg_same ..).trans hread, fun q hq => State.reg_setReg_ne _ _ _ _ hq, BitVec.add_sub_cancel _ _, ?_,
    State.setReg_status .., State.setReg_result ..⟩
  exact BitVec.add_assoc s.ip 2 2

end Sys2Proof.Machine
end

section
/-! PROOF. Input and output (spec/44_io.md R115 to R120): the host's answer to a request, what each of its forms leaves, the
events, and the decimal text of an integer event. -/

namespace Sys2Proof.Machine

variable (s : State) (r : Reg)

/-! ## Input -/

theorem State.setReg_withPorts (p : Ports) (v : Word) :
    ({ s with ports := p } : State).setReg r v = { s.setReg r v with ports := p } := by
  cases r <;> rfl

/-- A value delivered. -/
theorem receive_value_commit (p : Ports) (v : Word) :
    (receive r (.value v) { s with ports := p }).commit 2 = { s.setReg r v with ports := p, ip := s.ip + 2 } := by
  rw [receive_value, Handled.commit_next, State.setReg_withPorts, State.setReg_ip]
  rfl

/-- The end of input: C first, then the register. -/
theorem receive_endOfInput_commit (p : Ports) :
    (receive r .endOfInput { s with ports := p }).commit 2 =
      { (s.setReg .C 0).setReg r (-1) with ports := p, ip := s.ip + 2 } := by
  rw [receive_endOfInput, State.setReg_withPorts s .C]
  exact receive_value_commit (s.setReg .C 0) r p (-1)

/-- The first listed answer, or a free one where none is listed. -/
theorem Ports.inInt_eq {p p' : Ports} {ans : InputAnswer Word}
    (h : (∃ rest, p.intAnswers = ans :: rest ∧ p' = { p with intAnswers := rest }) ∨
      (p.intAnswers = [] ∧ ans = Config.intAnswer p.draws ∧ p' = { p with draws := p.draws + 1 })) :
    p.inInt = (ans, p') := by
  obtain ⟨rest, hlist, rfl⟩ | ⟨hnil, rfl, rfl⟩ := h
  · simp only [Ports.inInt, hlist]
  · simp only [Ports.inInt, hnil]

/-- The first listed answer, or a free one where none is listed. -/
theorem Ports.inChar_eq {p p' : Ports} {ans : InputAnswer Byte}
    (h : (∃ rest, p.charAnswers = ans :: rest ∧ p' = { p with charAnswers := rest }) ∨
      (p.charAnswers = [] ∧ ans = Config.charAnswer p.draws ∧ p' = { p with draws := p.draws + 1 })) :
    p.inChar = (ans, p') := by
  obtain ⟨rest, hlist, rfl⟩ | ⟨hnil, rfl, rfl⟩ := h
  · simp only [Ports.inChar, hlist]
  · simp only [Ports.inChar, hnil]

/-- Settles O48: the request answers `ans` and leaves `p`, by `Ports.inInt_eq`; then the three forms of an answer. -/
theorem inDeliversTheHostsAnswer : Obligations.InDeliversTheHostsAnswer := by
  unfold Obligations.InDeliversTheHostsAnswer
  intro s r ans p h
  rw [exec_inp, Ports.inInt_eq h]
  refine ⟨?_, ?_, ?_⟩
  · rintro v rfl
    rw [receive_value_commit]
  · rintro rfl
    rw [receive_endOfInput_commit]
  · rintro rfl
    rfl

/-- A character's word has the character's unsigned value. -/
theorem toInt_zeroExtend_byte (b : Byte) : (b.zeroExtend 32).toInt = b.toNat := by
  have hlt := b.isLt
  rw [BitVec.toInt_eq_toNat_cond, BitVec.toNat_setWidth]
  omega

/-- Settles O49: as O48, with the character delivered as its unsigned value. -/
theorem getDeliversOneCharacter : Obligations.GetDeliversOneCharacter := by
  unfold Obligations.GetDeliversOneCharacter
  intro s r ans p h
  rw [exec_get, Ports.inChar_eq h]
  refine ⟨?_, ?_, ?_⟩
  · rintro b rfl
    exact ⟨b.zeroExtend 32, toInt_zeroExtend_byte b, congrArg _ (receive_value_commit s r p _)⟩
  · rintro rfl
    exact congrArg _ (receive_endOfInput_commit s r p)
  · rintro rfl
    rfl

/-! ## Output -/

/-- Settles O50: `emit` is what the handler does. -/
theorem outEmitsTheInteger : Obligations.OutEmitsTheInteger := by
  unfold Obligations.OutEmitsTheInteger
  intro s r
  rw [exec, execOut, withReg_selector, dispatch_proceed]
  rfl

theorem exec_put_inRange {s : State} {r : Reg} (h : ¬((s.reg r).toInt < 0 ∨ 254 < (s.reg r).toInt)) :
    exec (.put r.selector) s = .next { s.emit (.outByte ((s.reg r).setWidth 8)) with ip := s.ip + 2 } := by
  rw [exec, execPut, withReg_selector, if_neg h, dispatch_proceed]
  rfl

/-- The byte of a word in 0 .. 254 has its value. -/
theorem toNat_setWidth_byte {v : Word} (hlo : 0 ≤ v.toInt) (hhi : v.toInt ≤ 254) : ((v.setWidth 8).toNat : Int) = v.toInt := by
  have hlt := v.isLt
  rw [BitVec.toInt_eq_toNat_cond] at hlo hhi ⊢
  rw [BitVec.toNat_setWidth]
  split_ifs at * <;> omega

/-- Settles O51: a value in range by `exec_put_inRange`, any other by `exec_put_range`. -/
theorem putEmitsOneByteUpTo254 : Obligations.PutEmitsOneByteUpTo254 := by
  unfold Obligations.PutEmitsOneByteUpTo254
  exact fun s r => ⟨fun hlo hhi => ⟨_, toNat_setWidth_byte hlo hhi, exec_put_inRange (by omega)⟩, exec_put_range r⟩

/-! ## Decimal text -/

/-- The ASCII code of a decimal digit. -/
def asciiDigit (d : Nat) : Byte := BitVec.ofNat 8 (48 + d)

/-- The decimal digits of a number, the most significant first, and one 0 for the number 0. -/
def decimalOf (n : Nat) : List Nat := if n = 0 then [0] else (Nat.digits 10 n).reverse

theorem decimalOf_of_lt {n : Nat} (h : n < 10) : decimalOf n = [n] := by
  unfold decimalOf
  split_ifs with h0
  · rw [h0]
  · rw [Nat.digits_of_lt 10 n h0 h, List.reverse_singleton]

theorem decimalOf_of_ge {n : Nat} (h : 10 ≤ n) : decimalOf n = decimalOf (n / 10) ++ [n % 10] := by
  rw [decimalOf, decimalOf, if_neg (by omega), if_neg (by omega), Nat.digits_def' (by omega) (by omega),
    List.reverse_cons]

/-- The model's digits, for numbers that its fuel suffices for. -/
theorem decimalDigits_eq_map_decimalOf {fuel n : Nat} (h : n < 10 ^ fuel) (hfuel : fuel ≠ 0) :
    decimalDigits fuel n = (decimalOf n).map asciiDigit := by
  induction fuel generalizing n with
  | zero => exact absurd rfl hfuel
  | succ fuel ih =>
    rw [decimalDigits]
    split_ifs with hsmall
    · rw [decimalOf_of_lt hsmall]
      rfl
    · have hquot : n / 10 < 10 ^ fuel := Nat.div_lt_of_lt_mul (by rwa [← pow_succ'])
      have hfuel' : fuel ≠ 0 := by
        rintro rfl
        omega
      rw [decimalOf_of_ge (not_lt.1 hsmall), List.map_append, ih hquot hfuel']
      rfl

theorem decimalOf_lt_ten {n d : Nat} (h : d ∈ decimalOf n) : d < 10 := by
  unfold decimalOf at h
  split_ifs at h with h0
  · rw [List.mem_singleton.1 h]
    omega
  · exact Nat.digits_lt_base (by omega) (List.mem_reverse.1 h)

theorem decimalOf_ne_nil (n : Nat) : decimalOf n ≠ [] := by
  unfold decimalOf
  split_ifs with h0
  · exact List.cons_ne_nil _ _
  · exact fun hnil => h0 (Nat.digits_eq_nil_iff_eq_zero.1 (List.reverse_eq_nil_iff.1 hnil))

/-- The first digit is 0 for the number 0 only. -/
theorem decimalOf_head {n : Nat} (h : (decimalOf n).head? = some 0) : decimalOf n = [0] := by
  unfold decimalOf at h ⊢
  split_ifs at h ⊢ with h0
  · rfl
  · rw [List.head?_reverse, List.getLast?_eq_some_getLast (Nat.digits_ne_nil_iff_ne_zero.2 h0)] at h
    exact absurd (Option.some.inj h) (Nat.getLast_digit_ne_zero 10 h0)

/-- The digits have the number's value. -/
theorem decimalOf_value (n : Nat) : (decimalOf n).foldl (fun v d => 10 * v + d) 0 = n := by
  unfold decimalOf
  split_ifs with h0
  · rw [h0]
    rfl
  · rw [List.foldl_reverse]
    calc _ = Nat.ofDigits 10 (Nat.digits 10 n) := by simp [Nat.ofDigits_eq_foldr, add_comm]
      _ = n := Nat.ofDigits_digits 10 n

/-- Settles O52: ten digits suffice for a word, and `decimalOf` has the properties asked for. -/
theorem outIntRendersMinimalDecimal : Obligations.OutIntRendersMinimalDecimal := by
  unfold Obligations.OutIntRendersMinimalDecimal
  intro v
  have hbounds := Word.toInt_bounds v
  have hdigits : decimalDigits 10 v.toInt.natAbs = (decimalOf v.toInt.natAbs).map asciiDigit :=
    decimalDigits_eq_map_decimalOf (by omega) (by omega)
  refine ⟨decimalOf v.toInt.natAbs, fun d => decimalOf_lt_ten, decimalOf_ne_nil _, decimalOf_head, decimalOf_value _, ?_⟩
  rw [OutputEvent.bytes, hdigits]
  split_ifs <;> rfl

end Sys2Proof.Machine
end
